-- ==== Sys2Proof/Word.lean ====
section
/-! DEFINITION. The widths of the values the core handles: bytes, 16-bit words, 32-bit longs, register indices
(00_scope.md R7, R8). -/

namespace Sys2Proof

/-- An 8-bit unsigned value: one cell of the memory array (10_state.md R33). -/
abbrev Byte := BitVec 8

/-- A 16-bit value: an opcode word (OPLEN), an extension word, the whole CCR (CCRLEN) (00_scope.md R7). -/
abbrev Word := BitVec 16

/-- A 32-bit value: a data register, an address register or PC (XLEN, 00_scope.md R7). -/
abbrev Long := BitVec 32

/-- A 3-bit register index: every index names a register (10_state.md R21; NDREG = NAREG = 8). -/
abbrev RegIdx := Fin 8

end Sys2Proof
end

