-- ==== Sys2Proof/Syntax.lean ====
section
/-! DEFINITION. The instructions: one constructor per row of spec/opcode_table.json (30_encoding.md R86).
An operand of a constructor is a field of the opcode word that the handler reads (30_encoding.md R82, R83). -/

namespace Sys2Proof

/-- The eight instructions. RTS, CMP.B, JMP and BRA.W read no field of the opcode word; BRA.W's displacement is the
extension word, which its handler reads from memory (30_encoding.md R80, R83; log 22). -/
inductive Instr where
  /-- RTS (0x4E75, 44_control.md R160). -/
  | rts
  /-- MOVE.B D[src],D[dst] (0x1081, 41_data_move.md R120). -/
  | moveB (src dst : RegIdx)
  /-- ADD.L D[src],D[dst] (0xD442, 42_arithmetic.md R130). -/
  | addL (src dst : RegIdx)
  /-- SUB.W D[src],A[dst] (0x91E7, 42_arithmetic.md R131). -/
  | subW (src dst : RegIdx)
  /-- CMP.B, two fixed data registers (0xB045, 43_compare.md R150). -/
  | cmpB
  /-- JMP through one fixed address register (0x4EBA, 44_control.md R161). -/
  | jmp
  /-- BRA.W with its displacement in the extension word (0x6000, 44_control.md R162). -/
  | braW
  /-- BLE.B with an 8-bit displacement in the opcode's low byte (0x1111, 44_control.md R163). -/
  | bleB (disp8 : Byte)
deriving DecidableEq, Repr

end Sys2Proof
end

