-- ==== Sys2Proof/WellFormed.lean ====
section
/-! DEFINITION. Which instructions the literal decoder can yield (30_encoding.md R85, R86): the fields are those the
one literal of each row carries. The handlers have a meaning for every field value all the same (log 8). -/

namespace Sys2Proof

/-- The operands are the field values of the row's literal: MOVE.B D0,D1; ADD.L D2,D2; SUB.W D0,A7; BLE.B 17
(30_encoding.md R86, R90). -/
def Instr.wellFormed : Instr → Bool
  | .rts => true
  | .moveB src dst => src == 0 && dst == 1
  | .addL src dst => src == 2 && dst == 2
  | .subW src dst => src == 0 && dst == 7
  | .cmpB => true
  | .jmp => true
  | .braW => true
  | .bleB disp8 => disp8 == 0x11

end Sys2Proof
end

