-- ==== Sys2Proof/Decode.lean ====
section
/-! DEFINITION. The decoder (30_encoding.md R80 to R87), total on any bytes and rejecting by name, and after it the
encoder and the assembler's spelling (30_encoding.md R86, R90). -/

namespace Sys2Proof

/-! ### Fields of an opcode word (30_encoding.md R82) -/

/-- `src = (opcode >> 9) & 0x7`, bits op[11:9]. -/
def srcField (op : Word) : RegIdx := (op.extractLsb' 9 3).toFin

/-- `dst = opcode & 0x7`, bits op[2:0]. -/
def dstField (op : Word) : RegIdx := (op.extractLsb' 0 3).toFin

/-- `disp8 = opcode & 0xFF`, bits op[7:0]. -/
def disp8Field (op : Word) : Byte := op.extractLsb' 0 8

/-! ### The opcode map (30_encoding.md R85, R86) -/

/-- One row of the opcode map: the literal the whole word is compared with (mask 0xFFFF), and the instruction with the
fields its handler reads. -/
structure OpcodeRow where
  literal : Word
  build : Word → Instr

/-- "a static mapping from literal 16-bit value to handler": the eight literals (30_encoding.md R86). -/
def opcodeMap : List OpcodeRow :=
  [ { literal := 0x4E75, build := fun _ => .rts },
    { literal := 0x1081, build := fun op => .moveB (srcField op) (dstField op) },
    { literal := 0xD442, build := fun op => .addL (srcField op) (dstField op) },
    { literal := 0x91E7, build := fun op => .subW (srcField op) (dstField op) },
    { literal := 0xB045, build := fun _ => .cmpB },
    { literal := 0x4EBA, build := fun _ => .jmp },
    { literal := 0x6000, build := fun _ => .braW },
    { literal := 0x1111, build := fun op => .bleB (disp8Field op) } ]

/-- Look the whole word up in the map; `none` is an unknown opcode (30_encoding.md R85, R87).
UNVERIFIED, safe: literal and not pattern decode is the spec's decision D7 (log 8). -/
def decodeOp (op : Word) : Option Instr :=
  (opcodeMap.find? fun row => row.literal == op).map fun row => row.build op

/-- Why the decoder yields no instruction. -/
inductive DecodeReject where
  /-- Fewer than the two bytes of an opcode word (30_encoding.md R80). -/
  | truncated
  /-- The word is none of the eight literals (30_encoding.md R87). -/
  | unknownOpcode (op : Word)
deriving DecidableEq, Repr

/-- The decoder over bytes: the first byte is op[15:8] (30_encoding.md R81); it reads no extension word (R80). -/
def decode : List Byte → Except DecodeReject Instr
  | hi :: lo :: _ =>
    match decodeOp (hi ++ lo) with
    | some i => .ok i
    | none => .error (.unknownOpcode (hi ++ lo))
  | _ => .error .truncated

/-! ### The encoder (30_encoding.md R82, R86) -/

/-- The row's fixed bits with src at op[11:9] and dst at op[2:0]. -/
def packFields (fixed : Word) (src dst : RegIdx) : Word :=
  fixed ||| (BitVec.ofNat 16 src.val <<< 9) ||| BitVec.ofNat 16 dst.val

/-- The opcode word of an instruction: the literal of its row, written from the row's bits and its fields. -/
def encodeOp : Instr → Word
  | .rts => 0b0100111001110101
  | .moveB src dst => packFields 0b0001000010000000 src dst
  | .addL src dst => packFields 0b1101000001000000 src dst
  | .subW src dst => packFields 0b1001000111100000 src dst
  | .cmpB => 0b1011000001000101
  | .jmp => 0b0100111010111010
  | .braW => 0b0110000000000000
  | .bleB disp8 => (0b00010001#8) ++ disp8

/-- The words of an instruction as assembled: BRA.W is followed by trunc_16 of its displacement, no other instruction
has a second word (30_encoding.md R80, R90). -/
def encode (i : Instr) (d16 : Int) : List Word :=
  match i with
  | .braW => [encodeOp .braW, BitVec.ofInt 16 d16]
  | .rts => [encodeOp .rts]
  | .moveB src dst => [encodeOp (.moveB src dst)]
  | .addL src dst => [encodeOp (.addL src dst)]
  | .subW src dst => [encodeOp (.subW src dst)]
  | .cmpB => [encodeOp .cmpB]
  | .jmp => [encodeOp .jmp]
  | .bleB disp8 => [encodeOp (.bleB disp8)]

/-- The two bytes of a word as they lie in memory, high byte first (20_memory.md R52). -/
def wordBytes (w : Word) : List Byte := [w.extractLsb' 8 8, w.extractLsb' 0 8]

/-- The bytes of an instruction as they lie in memory (30_encoding.md R81). -/
def encodeBytes (i : Instr) (d16 : Int) : List Byte := (encode i d16).flatMap wordBytes

/-- The assembler's spelling, source operand first; an instruction no literal decodes to has none ("Any other operand
spelling does not assemble") (30_encoding.md R90; UNVERIFIED, safe: decision D22, log 23). -/
def spelling (i : Instr) (d16 : Int) : Option String :=
  match i with
  | .rts => some "RTS"
  | .moveB 0 1 => some "MOVE.B D0,D1"
  | .moveB _ _ => none
  | .addL 2 2 => some "ADD.L D2,D2"
  | .addL _ _ => none
  | .subW 0 7 => some "SUB.W D0,A7"
  | .subW _ _ => none
  | .cmpB => some "CMP.B D0,D5"
  | .jmp => some "JMP (A2)"
  | .braW => some ("BRA.W " ++ toString d16)
  | .bleB disp8 => if disp8 = 0x11 then some "BLE.B 17" else none

/-! ### Words as spec/opcode_table.json numbers their bits -/

/-- The first two words of an instruction whose bits, numbered as the opcode table numbers them, are the low `nbits` bits
of `w` (every bit above is 0), laid out in memory order. -/
def tableWordBytes (nbits w : Nat) : List Byte :=
  wordBytes (BitVec.ofNat 16 (w % 2 ^ nbits)) ++ wordBytes (BitVec.ofNat 16 (w % 2 ^ nbits / 65536))

/-- The instruction the decoder reads from those bytes. -/
def decodeTableWord (nbits w : Nat) : Option Instr :=
  match decode (tableWordBytes nbits w) with
  | .ok i => some i
  | .error _ => none

end Sys2Proof
end

