-- ==== Sys2Proof/Machine/Bits.lean ====
section
/-! DEFINITION. Extension, truncation and sub-fields of values (00_scope.md R8, R10, R13). -/

namespace Sys2Proof.Machine

/-- `sext_N(v)`: the N-bit value read as a two's-complement signed integer (00_scope.md R10). -/
def sext {n : Nat} (v : BitVec n) : Int := v.toInt

/-- `trunc_N(x)`: `x mod 2^N` of any integer (00_scope.md R10). -/
def trunc (n : Nat) (x : Int) : BitVec n := BitVec.ofInt n x

/-- `zext_N(v)`: the N-bit value read as an unsigned number (00_scope.md R10). -/
def zext {n : Nat} (v : BitVec n) : Nat := v.toNat

/-- `b2i(cond)` (00_scope.md R13). -/
def b2i (b : Bool) : Nat := if b then 1 else 0

/-- `v[7:0]` of a long. -/
def lowByte (v : Long) : Byte := v.extractLsb' 0 8

/-- `v[15:0]` of a long. -/
def lowWord (v : Long) : Word := v.extractLsb' 0 16

/-- `(v & 0xFFFFFF00) | b`: the low byte replaced, the upper 24 bits kept (41_data_move.md R120). -/
def insertByte (v : Long) (b : Byte) : Long := (v &&& 0xFFFFFF00#32) ||| b.setWidth 32

/-- A 16-bit value zero-extended into a 32-bit register (42_arithmetic.md R131). -/
def wordToLong (w : Word) : Long := w.setWidth 32

end Sys2Proof.Machine
end

