-- ==== Sys2Proof/Machine/Params.lean ====
section
/-! DEFINITION. The handlers' implementation parameters with the values this hardware has (00_scope.md R7). Each is a
decision of the spec where the source is silent: UNVERIFIED, unsafe (log 9 to log 14). -/

namespace Sys2Proof.Machine.Params

/-- JMP_AREG: the address register JMP reads, A2 (D8, log 9). -/
def jmpAreg : RegIdx := 2

/-- CMP_SRC_DREG: the data register CMP.B reads as its source, D0 (D9, log 10). -/
def cmpSrcDreg : RegIdx := 0

/-- CMP_DST_DREG: the data register CMP.B reads as its destination, D5 (D9, log 10). -/
def cmpDstDreg : RegIdx := 5

/-- SUBW_CV.zero: (C, V) written by SUB.W when the difference is zero (D12, log 12). -/
def subwCvZero : Bool × Bool := (false, false)

/-- SUBW_CV.neg: (C, V) written by SUB.W when the difference is negative (D12, log 12). -/
def subwCvNeg : Bool × Bool := (false, false)

/-- SUBW_CV.pos: (C, V) written by SUB.W when the difference is positive (D12, log 12). -/
def subwCvPos : Bool × Bool := (false, false)

/-- BRA_BASE: what is added to the BRA opcode's address besides its displacement (D13, log 13). -/
def braBase : Int := 2

/-- BLE_BASE: what is added to the BLE opcode's address besides its displacement when taken (D14, log 14). -/
def bleBase : Int := 0

/-- BLE_FALL: what BLE adds to PC when not taken (D15, log 14). -/
def bleFall : Int := 0

end Sys2Proof.Machine.Params
end

