-- ==== Sys2Proof/Config.lean ====
section
/-! DEFINITION. What the implementation fixes about the memory array (00_scope.md R7, 10_state.md R33, R37).
The handlers' own parameters (JMP_AREG, SUBW_CV, BRA_BASE, ...) stand in Machine/Params.lean. -/

namespace Sys2Proof.Config

/-- MEM_SIZE, 640 KiB (00_scope.md R7). UNVERIFIED, unsafe: the source's literal is unaudited (D4, log 1). -/
def memSize : Nat := 655360

/-- What a byte of memory that nothing has written reads as: 0x00 (10_state.md R37).
UNVERIFIED, unsafe: the source states no value (D3, log 5). -/
def unlistedByte : Byte := 0x00

end Sys2Proof.Config
end

