-- ==== Sys2Proof/Machine/State.lean ====
section
/-! DEFINITION. The architectural state (10_state.md R20), the reasons a step stops, and the state after reset (R37). -/

namespace Sys2Proof.Machine

/-- The condition code register: its four defined flags. Bits 15:4 are hardwired to 0 and hold nothing
(10_state.md R28, R29); the 16-bit view is `Ccr.toWord` (Flags.lean, log 3). -/
structure Ccr where
  n : Bool
  z : Bool
  v : Bool
  c : Bool
deriving DecidableEq, Repr

/-- The memory array as a sparse list of (address, byte), addresses strictly rising, no entry equal to
`Config.unlistedByte`, every address below MEM_SIZE (`Memory.wf`, 10_state.md R33, log 5). -/
abbrev Memory := List Host.Cell

/-- The tuple (D[0..7], A[0..7], PC, CCR, MEM): "Nothing else is state" (10_state.md R20, R34, R35).
PC is a register of its own, A7 is the stack pointer (R23, R24; log 2). -/
structure State where
  d : Vector Long 8
  a : Vector Long 8
  pc : Long
  ccr : Ccr
  mem : Memory
deriving DecidableEq, Repr

/-- What stops a step (60_exceptions.md R200, R201). -/
inductive Fault where
  /-- Raised by the opcode fetch, BRA.W's extension read and RTS's stack read when `addr + width > MEM_SIZE`
  (20_memory.md R53). Safe: it is the core's own error, and no state changes (log 16). -/
  | outOfBounds (addr width : Nat)
deriving DecidableEq, Repr

/-- Instructions without a meaning. -/
inductive Refusal where
  /-- Raised by nothing: every arm of `exec` calls a meaning. Safe (log 24). -/
  | notModelled (mnemonic : String)
deriving DecidableEq, Repr

/-- The report of an unknown opcode: the fetched word and the PC it was fetched from. An output of a step, not state
(10_state.md R20; 40_fetch_decode.md R104, R107; log 15). -/
structure UnknownOpcode where
  value : Word
  address : Long
deriving DecidableEq, Repr

/-- The state at reset, that is at the creation of the core (10_state.md R37, 70_reset_and_hazards.md R230).
UNVERIFIED, unsafe: the spec's decision D3, the source states no value (log 4, log 5). -/
def State.reset : State where
  d := Vector.replicate 8 0x00000000#32
  a := Vector.replicate 8 0x00000000#32
  pc := 0x00000000
  ccr := { n := false, z := false, v := false, c := false }
  mem := []

end Sys2Proof.Machine
end

