-- ==== Sys2Proof/Machine/Flags.lean ====
section
/-! DEFINITION. Every flag computation of the core (10_state.md R30, R31): one function per handler that writes flags, and
the one condition that reads them. -/

namespace Sys2Proof.Machine

/-- The 16-bit CCR: `N<<3 | Z<<2 | V<<1 | C`, bits 15:4 zero (10_state.md R28, R29, R42; UNVERIFIED, unsafe: decision D2,
log 3). -/
def Ccr.toWord (f : Ccr) : Word :=
  BitVec.ofNat 16 (b2i f.n <<< 3 ||| b2i f.z <<< 2 ||| b2i f.v <<< 1 ||| b2i f.c)

/-- A host write of the whole CCR: C <- v[0], V <- v[1], Z <- v[2], N <- v[3], v[15:4] ignored (10_state.md R42). -/
def Ccr.ofNat (v : Nat) : Ccr where
  n := v.testBit 3
  z := v.testBit 2
  v := v.testBit 1
  c := v.testBit 0

/-- MOVE.B: Z and N from the moved byte, C and V cleared (41_data_move.md R120). -/
def moveByteFlags (b : Byte) : Ccr where
  n := b.msb
  z := b == 0
  v := false
  c := false

/-- ADD.L from the unbounded sum: C if it exceeds 0xFFFFFFFF, N and Z from its low 32 bits, V cleared
(42_arithmetic.md R130). -/
def addLongFlags (sum : Int) : Ccr where
  n := (trunc 32 sum).msb
  z := trunc 32 sum == 0
  v := false
  c := decide (sum > 0xFFFFFFFF)

/-- SUB.W from the exact difference: one of three fixed patterns chosen by its sign (42_arithmetic.md R131; UNVERIFIED,
unsafe: decision D12, log 12). -/
def subWordFlags (r : Int) : Ccr :=
  if r = 0 then { n := false, z := true, v := Params.subwCvZero.2, c := Params.subwCvZero.1 }
  else if r < 0 then { n := true, z := false, v := Params.subwCvNeg.2, c := Params.subwCvNeg.1 }
  else { n := false, z := false, v := Params.subwCvPos.2, c := Params.subwCvPos.1 }

/-- CMP.B of the destination byte with the source byte, unsigned: "N & C if less; C only if greater; Z if equal"
(43_compare.md R150; UNVERIFIED, unsafe: decisions D9, D10, log 10). -/
def compareByteFlags (dst src : Byte) : Ccr :=
  if dst.toNat < src.toNat then { n := true, z := false, v := false, c := true }
  else if dst.toNat > src.toNat then { n := false, z := false, v := false, c := true }
  else { n := false, z := true, v := false, c := false }

/-- RTS "clears Overflow only" (44_control.md R160). -/
def clearOverflow (f : Ccr) : Ccr := { f with v := false }

/-- BLE's condition: `Z OR (N XOR V)` (44_control.md R163). -/
def lessOrEqual (f : Ccr) : Bool := f.z || (f.n ^^ f.v)

end Sys2Proof.Machine
end

