-- ==== Sys2Proof/Machine/Ops.lean ====
section
/-! DEFINITION. The named operations over memory and registers (00_scope.md R9, R11, 20_memory.md R50 to R58),
the fetch (40_fetch_decode.md R102), and the one way an error leaves a handler. The core has no trap, so no exception entry
and no return from one exist (60_exceptions.md R204, R205). -/

namespace Sys2Proof.Machine

/-! ### The memory array -/

/-- The canonical form from address `lo` on: addresses rise strictly, lie below MEM_SIZE, no entry is the unlisted byte. -/
def Memory.wfFrom (lo : Nat) : Memory → Bool
  | [] => true
  | (k, b) :: rest =>
    decide (lo ≤ k) && decide (k < Config.memSize) && decide (b ≠ Config.unlistedByte) && Memory.wfFrom (k + 1) rest

/-- The canonical form of a memory: equal memories are equal lists (log 5). -/
def Memory.wf (m : Memory) : Bool := Memory.wfFrom 0 m

/-- `MEM[a]`: the listed byte, else what an unlisted address reads as. The bounds rule is the callers'. -/
def Memory.byteAt : Memory → Nat → Byte
  | [], _ => Config.unlistedByte
  | (k, b) :: rest, a => if k = a then b else Memory.byteAt rest a

/-- `MEM[a] <- v`, keeping the canonical form: writing the unlisted byte removes the entry. -/
def Memory.setByte : Memory → Nat → Byte → Memory
  | [], a, v => if v = Config.unlistedByte then [] else [(a, v)]
  | (k, b) :: rest, a, v =>
    if k < a then (k, b) :: Memory.setByte rest a v
    else if k = a then (if v = Config.unlistedByte then rest else (a, v) :: rest)
    else if v = Config.unlistedByte then (k, b) :: rest
    else (a, v) :: (k, b) :: rest

/-- Bytes at consecutive addresses from `a` on. -/
def Memory.setBytes : Memory → Nat → List Byte → Memory
  | m, _, [] => m
  | m, a, b :: bs => Memory.setBytes (Memory.setByte m a b) (a + 1) bs

/-- The bounds rule: an access of `n` bytes at `a` is allowed iff `a + n <= MEM_SIZE` on unbounded integers
(20_memory.md R50, R53; UNVERIFIED, safe: decision D5, log 6). -/
def inBounds (a n : Nat) : Bool := decide (a + n ≤ Config.memSize)

/-- `raise OutOfBounds(a, n)` in a read: no byte is read, and nothing else happens (00_scope.md R12). -/
def raiseOutOfBounds {α : Type} (a n : Nat) : Except Fault α := .error (.outOfBounds a n)

/-- `read_byte(a)`, `MemRead(a, 1)` (20_memory.md R51). -/
def readByte (m : Memory) (a : Nat) : Except Fault Byte :=
  if inBounds a 1 then .ok (m.byteAt a) else raiseOutOfBounds a 1

/-- `read_word(a)`, `MemRead(a, 2)`: big-endian, no partial read (20_memory.md R52, R53). -/
def readWord (m : Memory) (a : Nat) : Except Fault Word :=
  if inBounds a 2 then .ok (m.byteAt a ++ m.byteAt (a + 1)) else raiseOutOfBounds a 2

/-- `MemRead(a, 4)`: big-endian, all four bytes bound-checked first (20_memory.md R52, R53; UNVERIFIED, unsafe:
decision D6, log 7). -/
def readLong (m : Memory) (a : Nat) : Except Fault Long :=
  if inBounds a 4 then
    .ok (m.byteAt a ++ m.byteAt (a + 1) ++ m.byteAt (a + 2) ++ m.byteAt (a + 3))
  else raiseOutOfBounds a 4

/-- `write_byte(a, v)`: the host's, `MEM[a] <- v[7:0]` (20_memory.md R56). -/
def writeByte (m : Memory) (a v : Nat) : Except Fault Memory :=
  if inBounds a 1 then .ok (m.setByte a (BitVec.ofNat 8 v)) else raiseOutOfBounds a 1

/-- `write_word(a, v)`: the host's, high byte at `a`, neither byte when out of bounds (20_memory.md R56; UNVERIFIED,
unsafe: decision D23, log 18). -/
def writeWord (m : Memory) (a v : Nat) : Except Fault Memory :=
  if inBounds a 2 then
    .ok ((m.setByte a (BitVec.ofNat 8 (v / 256))).setByte (a + 1) (BitVec.ofNat 8 v))
  else raiseOutOfBounds a 2

/-! ### Registers: none is hardwired, none has an alias (10_state.md R21, R23, R24) -/

/-- `D[i]`. -/
def State.dreg (s : State) (i : RegIdx) : Long := s.d[i]

/-- `A[i]`. -/
def State.areg (s : State) (i : RegIdx) : Long := s.a[i]

/-- `D[i] <- v`. -/
def State.setDreg (s : State) (i : RegIdx) (v : Long) : State := { s with d := s.d.set i v }

/-- `A[i] <- v`; a write to A7 never changes PC (10_state.md R24). -/
def State.setAreg (s : State) (i : RegIdx) (v : Long) : State := { s with a := s.a.set i v }

/-- `pc <- target`: any 32-bit value, odd or even (10_state.md R27; UNVERIFIED, unsafe: decision D21, log 19). -/
def State.setPc (s : State) (target : Long) : State := { s with pc := target }

/-- `flags.set_from(zero, negative, carry, overflow)`: all four flags in one update (10_state.md R32). -/
def State.setCcr (s : State) (f : Ccr) : State := { s with ccr := f }

/-- The memory replaced; only the host's operations use it (20_memory.md R57). -/
def State.setMem (s : State) (m : Memory) : State := { s with mem := m }

/-- `trunc_32(PC + delta)` (10_state.md R27). -/
def State.pcPlus (s : State) (delta : Int) : Long := trunc 32 ((s.pc.toNat : Int) + delta)

/-! ### Fetch, and the end of a handler -/

/-- The opcode fetch: the big-endian word at PC, which does not move PC (40_fetch_decode.md R102, 10_state.md R25). -/
def fetchOpcode (s : State) : Except Fault Word := readWord s.mem s.pc.toNat

/-- A handler's read, then its writes: a read that fails ends the step with the fault and no write
(40_fetch_decode.md R106). -/
def afterRead {α : Type} (r : Except Fault α) (k : α → State) : Host.Outcome State Fault Refusal :=
  match r with
  | .ok x => .next (k x)
  | .error f => .fault f

end Sys2Proof.Machine
end

