-- ==== Sys2Proof/Machine/Operands.lean ====
section
/-! DEFINITION. Every operand form of the eight instructions (30_encoding.md R83, R84): the low byte, the low word or all
of a register, the stack slot, and the two displacements. -/

namespace Sys2Proof.Machine

/-- `D[i][7:0]` (41_data_move.md R120, 43_compare.md R150). -/
def dregByte (s : State) (i : RegIdx) : Byte := lowByte (s.dreg i)

/-- `sext_16(D[i][15:0])` (42_arithmetic.md R131). -/
def dregSignedWord (s : State) (i : RegIdx) : Int := sext (lowWord (s.dreg i))

/-- `sext_16(A[i][15:0])` (42_arithmetic.md R131; UNVERIFIED, unsafe: decision D11, log 11). -/
def aregSignedWord (s : State) (i : RegIdx) : Int := sext (lowWord (s.areg i))

/-- `D[i][7:0] <- b`, D[i][31:8] unchanged (41_data_move.md R120). -/
def setDregByte (s : State) (i : RegIdx) (b : Byte) : State := s.setDreg i (insertByte (s.dreg i) b)

/-- `A[i] <- trunc_16(r)`, zero-extended (42_arithmetic.md R131; UNVERIFIED, unsafe: decision D11, log 11). -/
def setAregWord (s : State) (i : RegIdx) (r : Int) : State := s.setAreg i (wordToLong (trunc 16 r))

/-- A7, the stack pointer (10_state.md R23). -/
def stackPointer : RegIdx := 7

/-- The 32-bit value at A7 (44_control.md R160). -/
def readStack (s : State) : Except Fault Long := readLong s.mem (s.areg stackPointer).toNat

/-- `A[7] <- trunc_32(A[7] + 4)` (44_control.md R160). -/
def advanceStack (s : State) : State :=
  s.setAreg stackPointer (trunc 32 ((s.areg stackPointer).toNat + 4))

/-- BRA.W's extension word, at PC + 2 as an unbounded integer (44_control.md R162, 20_memory.md R50). -/
def readExtension (s : State) : Except Fault Word := readWord s.mem (s.pc.toNat + 2)

/-- `trunc_32(PC + BRA_BASE + sext_16(ext))` (44_control.md R162; UNVERIFIED, unsafe: decision D13, log 13). -/
def branchTarget16 (s : State) (ext : Word) : Long := s.pcPlus (Params.braBase + sext ext)

/-- `trunc_32(PC + BLE_BASE + sext_8(disp8))` (44_control.md R163; UNVERIFIED, unsafe: decision D14, log 14). -/
def branchTarget8 (s : State) (disp8 : Byte) : Long := s.pcPlus (Params.bleBase + sext disp8)

end Sys2Proof.Machine
end

