-- ==== Sys2Proof/Machine/Arithmetic.lean ====
section
/-! DEFINITION. Arithmetic: ADD.L and SUB.W (42_arithmetic.md). PC is left where it is (40_fetch_decode.md R105). -/

namespace Sys2Proof.Machine

/-- ADD.L D[src],D[dst]: both operands read before the write, the sum unbounded (42_arithmetic.md R130). -/
def execAddL (src dst : RegIdx) (s : State) : Host.Outcome State Fault Refusal :=
  let sum : Int := (s.dreg dst).toNat + (s.dreg src).toNat
  .next ((s.setDreg dst (trunc 32 sum)).setCcr (addLongFlags sum))

/-- SUB.W D[src],A[dst]: destination minus source on signed 16-bit operands (42_arithmetic.md R131; UNVERIFIED, unsafe:
decisions D11, D12, log 11, log 12). -/
def execSubW (src dst : RegIdx) (s : State) : Host.Outcome State Fault Refusal :=
  let r := aregSignedWord s dst - dregSignedWord s src
  .next ((setAregWord s dst r).setCcr (subWordFlags r))

end Sys2Proof.Machine
end

