-- ==== Sys2Proof/Machine/Compare.lean ====
section
/-! DEFINITION. Compare: CMP.B (43_compare.md). PC is left where it is (40_fetch_decode.md R105). -/

namespace Sys2Proof.Machine

/-- CMP.B D0,D5: flags only, no register is written (43_compare.md R150). -/
def execCmpB (s : State) : Host.Outcome State Fault Refusal :=
  .next (s.setCcr (compareByteFlags (dregByte s Params.cmpDstDreg) (dregByte s Params.cmpSrcDreg)))

end Sys2Proof.Machine
end

