-- ==== Sys2Proof/Machine/Control.lean ====
section
/-! DEFINITION. Control transfer: RTS, JMP, BRA.W, BLE.B (44_control.md). A transfer takes effect at the next fetch, and no
target is checked (R164). -/

namespace Sys2Proof.Machine

/-- RTS: pop PC from A7, then advance A7 by 4; V cleared (44_control.md R160). -/
def execRts (s : State) : Host.Outcome State Fault Refusal :=
  afterRead (readStack s) fun ret => ((advanceStack s).setPc ret).setCcr (clearOverflow s.ccr)

/-- JMP (A2): all 32 bits (44_control.md R161; UNVERIFIED, unsafe: decision D8, log 9). -/
def execJmp (s : State) : Host.Outcome State Fault Refusal :=
  .next (s.setPc (s.areg Params.jmpAreg))

/-- BRA.W d16: the handler reads the extension word, then branches relative to it (44_control.md R162). -/
def execBraW (s : State) : Host.Outcome State Fault Refusal :=
  afterRead (readExtension s) fun ext => s.setPc (branchTarget16 s ext)

/-- BLE.B d8: branch if `Z OR (N XOR V)`; a branch not taken leaves PC at the BLE (44_control.md R163). -/
def execBleB (disp8 : Byte) (s : State) : Host.Outcome State Fault Refusal :=
  .next (s.setPc (if lessOrEqual s.ccr then branchTarget8 s disp8 else s.pcPlus Params.bleFall))

end Sys2Proof.Machine
end

