-- ==== Sys2Proof/Machine/DataMove.lean ====
section
/-! DEFINITION. Data move: MOVE.B (41_data_move.md). PC is left where it is (40_fetch_decode.md R105). -/

namespace Sys2Proof.Machine

/-- MOVE.B D[src],D[dst] (41_data_move.md R120). -/
def execMoveB (src dst : RegIdx) (s : State) : Host.Outcome State Fault Refusal :=
  let b := dregByte s src
  .next ((setDregByte s dst b).setCcr (moveByteFlags b))

end Sys2Proof.Machine
end

