-- ==== Sys2Proof/Machine/Dispatch.lean ====
section
/-! DEFINITION. The dispatcher's call of a handler: one arm per instruction (40_fetch_decode.md R103). -/

namespace Sys2Proof.Machine

-- "If found, invoke the handler with the opcode value as context" (40_fetch_decode.md R103)
def exec (i : Instr) (s : State) : Host.Outcome State Fault Refusal :=
  match i with
  | .rts => Sys2Proof.Machine.execRts s
  | .moveB src dst => Sys2Proof.Machine.execMoveB src dst s
  | .addL src dst => Sys2Proof.Machine.execAddL src dst s
  | .subW src dst => Sys2Proof.Machine.execSubW src dst s
  | .cmpB => Sys2Proof.Machine.execCmpB s
  | .jmp => Sys2Proof.Machine.execJmp s
  | .braW => Sys2Proof.Machine.execBraW s
  | .bleB disp8 => Sys2Proof.Machine.execBleB disp8 s

end Sys2Proof.Machine
end

