-- ==== Sys2Proof/Machine/Cycle.lean ====
section
/-! DEFINITION. One step in full: fetch, decode, execute, with the report of an unknown opcode beside its outcome
(40_fetch_decode.md R100 to R107), the state after a step, and the reads a step makes (20_memory.md R55). -/

namespace Sys2Proof.Machine

/-- One step and its report. The fetch comes first; a decode miss changes nothing and is not a fault; else the handler runs
(40_fetch_decode.md R101, R104; 60_exceptions.md R207). `next` with a report is the spec's outcome UnknownOpcode, `next`
with none its outcome ok, `fault` its outcome OutOfBounds (R107; log 15, log 16). -/
def runStep (s : State) : Host.Outcome State Fault Refusal × Option UnknownOpcode :=
  match fetchOpcode s with
  | .error f => (.fault f, none)
  | .ok op =>
    match decodeOp op with
    | none => (.next s, some { value := op, address := s.pc })
    | some i => (exec i s, none)

/-- The state after a step, whatever its outcome: a step that faults leaves the state as it was
(40_fetch_decode.md R106, R107), so the host may step again (R108). -/
def stateAfter (s : State) : State :=
  match (runStep s).1 with
  | .next t => t
  | .fault _ => s
  | .refused _ => s

/-- One read of memory: its first address and its width in bytes. -/
structure Access where
  addr : Nat
  width : Nat
deriving DecidableEq, Repr

/-- The read a handler makes, if any (20_memory.md R55). -/
def handlerReads (i : Instr) (s : State) : List Access :=
  match i with
  | .rts => [{ addr := (s.areg stackPointer).toNat, width := 4 }]
  | .braW => [{ addr := s.pc.toNat + 2, width := 2 }]
  | .moveB _ _ => []
  | .addL _ _ => []
  | .subW _ _ => []
  | .cmpB => []
  | .jmp => []
  | .bleB _ => []

/-- The reads a step attempts, in order: the fetch, then the handler's (20_memory.md R55, 60_exceptions.md R207). -/
def stepReads (s : State) : List Access :=
  { addr := s.pc.toNat, width := 2 } ::
    match fetchOpcode s with
    | .error _ => []
    | .ok op =>
      match decodeOp op with
      | none => []
      | some i => handlerReads i s

/-- The state that `withFetchWord` stores the instruction into: PC stays where it is when four bytes fit there, and is 0
otherwise (DESIGN CHOICE, log 20). -/
def withRoomAtPc (s : State) : State :=
  if inBounds s.pc.toNat 4 then s else s.setPc 0

/-- The four bytes of a table word stored at PC (log 20). -/
def storeTableWord (s : State) (nbits w : Nat) : State :=
  s.setMem (s.mem.setBytes s.pc.toNat (tableWordBytes nbits w))

end Sys2Proof.Machine
end

