-- ==== Sys2Proof/Machine/Step.lean ====
section
/-! DEFINITION. The one stepping operation, and placing an instruction where it fetches next. -/

namespace Sys2Proof.Machine

/-- `step()`: one call, at most one instruction (40_fetch_decode.md R100, R101). Its report of an unknown opcode is the
second component of `runStep` (log 15). -/
def step (s : State) : Host.Outcome State Fault Refusal := (runStep s).1

/-- The state with an instruction, its bits numbered as spec/opcode_table.json numbers them, stored where the step fetches
next; it stands for the host's load of a program (70_reset_and_hazards.md R233, log 20). -/
def State.withFetchWord (s : State) (nbits w : Nat) : State := storeTableWord (withRoomAtPc s) nbits w

end Sys2Proof.Machine
end

