-- ==== Sys2Proof/Machine/HostOps.lean ====
section
/-! DEFINITION. The host interface: exactly the operations of 10_state.md R40, each a function of the state, made only
between steps (R41; 20_memory.md R51, R52, R56, R58; UNVERIFIED, safe: decision D18, log 17). -/

namespace Sys2Proof.Machine

/-- The name of one flag. -/
inductive Flag where
  | z
  | n
  | c
  | v
deriving DecidableEq, Repr

/-- One operation of the host (10_state.md R40). Values are natural numbers: a register write stores them modulo 2^32
(R42). -/
inductive HostOp where
  | step
  | getData (i : RegIdx)
  | setData (i : RegIdx) (v : Nat)
  | getAddr (i : RegIdx)
  | setAddr (i : RegIdx) (v : Nat)
  | getPc
  | setPc (v : Nat)
  | getFlag (f : Flag)
  | setFlag (f : Flag) (b : Bool)
  | getCcr
  | setCcr (v : Nat)
  | advancePc (delta : Int)
  | loadImage (bytes : List Byte) (offset : Nat)
  | readByte (a : Nat)
  | readWord (a : Nat)
  | writeByte (a v : Nat)
  | writeWord (a v : Nat)
deriving DecidableEq, Repr

/-- What an operation answers (10_state.md R40, 40_fetch_decode.md R107, 60_exceptions.md R200). -/
inductive Reply where
  /-- Done, with no value. -/
  | ok
  /-- The value read. -/
  | value (v : Nat)
  /-- The flag read. -/
  | flag (b : Bool)
  /-- A step met an unknown opcode: not a fault. -/
  | unknownOpcode (report : UnknownOpcode)
  /-- An access past the end of memory, by a step or by the host. -/
  | outOfBounds (addr width : Nat)
  /-- The image does not fit: a load only. -/
  | imageTooLarge
  /-- A step refused an instruction: raised by nothing (log 24). -/
  | stepRefused (r : Refusal)
deriving DecidableEq, Repr

/-- `flags.get(flag)` (10_state.md R39). -/
def getFlag (f : Flag) (s : State) : Bool :=
  match f with
  | .z => s.ccr.z
  | .n => s.ccr.n
  | .c => s.ccr.c
  | .v => s.ccr.v

/-- `flags.set(flag, bool)` (10_state.md R39). -/
def setFlag (f : Flag) (b : Bool) (s : State) : State :=
  match f with
  | .z => s.setCcr { s.ccr with z := b }
  | .n => s.setCcr { s.ccr with n := b }
  | .c => s.setCcr { s.ccr with c := b }
  | .v => s.setCcr { s.ccr with v := b }

/-- `advance_pc(delta)`: PC <- trunc_32(PC + delta) (10_state.md R27, R40). -/
def advancePc (delta : Int) (s : State) : State := s.setPc (s.pcPlus delta)

/-- `load_image(bytes, offset)`: every byte, or none when the image does not fit (20_memory.md R58). -/
def loadImage (bytes : List Byte) (offset : Nat) (s : State) : State × Reply :=
  if inBounds offset bytes.length then (s.setMem (s.mem.setBytes offset bytes), .ok) else (s, .imageTooLarge)

/-- What the host is told of a read: its value, or the error (20_memory.md R51, R52). -/
def replyOfRead {n : Nat} (r : Except Fault (BitVec n)) : Reply :=
  match r with
  | .ok v => .value (zext v)
  | .error (.outOfBounds a w) => .outOfBounds a w

/-- A host write to memory: the new memory, or the error and the state as it was (20_memory.md R56). -/
def afterWrite (r : Except Fault Memory) (s : State) : State × Reply :=
  match r with
  | .ok m => (s.setMem m, .ok)
  | .error (.outOfBounds a w) => (s, .outOfBounds a w)

/-- What the host is told of a step (40_fetch_decode.md R107). -/
def replyOfStep (r : Host.Outcome State Fault Refusal × Option UnknownOpcode) : Reply :=
  match r with
  | (.next _, none) => .ok
  | (.next _, some report) => .unknownOpcode report
  | (.fault (.outOfBounds a w), _) => .outOfBounds a w
  | (.refused r, _) => .stepRefused r

/-- One operation of the host: the state after it and its answer (10_state.md R40). -/
def act (op : HostOp) (s : State) : State × Reply :=
  match op with
  | .step => (stateAfter s, replyOfStep (runStep s))
  | .getData i => (s, .value (s.dreg i).toNat)
  | .setData i v => (s.setDreg i (BitVec.ofNat 32 v), .ok)
  | .getAddr i => (s, .value (s.areg i).toNat)
  | .setAddr i v => (s.setAreg i (BitVec.ofNat 32 v), .ok)
  | .getPc => (s, .value s.pc.toNat)
  | .setPc v => (s.setPc (BitVec.ofNat 32 v), .ok)
  | .getFlag f => (s, .flag (getFlag f s))
  | .setFlag f b => (setFlag f b s, .ok)
  | .getCcr => (s, .value s.ccr.toWord.toNat)
  | .setCcr v => (s.setCcr (Ccr.ofNat v), .ok)
  | .advancePc delta => (advancePc delta s, .ok)
  | .loadImage bytes offset => loadImage bytes offset s
  | .readByte a => (s, replyOfRead (Machine.readByte s.mem a))
  | .readWord a => (s, replyOfRead (Machine.readWord s.mem a))
  | .writeByte a v => afterWrite (Machine.writeByte s.mem a v) s
  | .writeWord a v => afterWrite (Machine.writeWord s.mem a v) s

/-- The state after a sequence of host operations, first to last; the core makes no move of its own between them
(40_fetch_decode.md R100, 20_memory.md R62). -/
def session : List HostOp → State → State
  | [], s => s
  | op :: ops, s => session ops (act op s).1

end Sys2Proof.Machine
end

