-- ==== Sys2Proof/Safety.lean ====
section
/-! DEFINITION. The terms claims are written in: what an outcome holds, what a state keeps of another, the invariant, and
when a step or a run is safe. -/

namespace Sys2Proof.Machine

/-! ### Reading an outcome -/

/-- The next state of an outcome, if it is one. -/
def nextOf (o : Host.Outcome State Fault Refusal) : Option State :=
  match o with
  | .next t => some t
  | .fault _ => none
  | .refused _ => none

/-- The fault of an outcome, if it is one. -/
def faultOf (o : Host.Outcome State Fault Refusal) : Option Fault :=
  match o with
  | .next _ => none
  | .fault f => some f
  | .refused _ => none

/-! ### What a state keeps of another (frames) -/

/-- Every data register is as before. -/
def SameDregs (s t : State) : Prop := ∀ i : RegIdx, t.dreg i = s.dreg i

/-- Every data register but one is as before. -/
def SameDregsExcept (k : RegIdx) (s t : State) : Prop := ∀ i : RegIdx, i ≠ k → t.dreg i = s.dreg i

/-- Every address register is as before. -/
def SameAregs (s t : State) : Prop := ∀ i : RegIdx, t.areg i = s.areg i

/-- Every address register but one is as before. -/
def SameAregsExcept (k : RegIdx) (s t : State) : Prop := ∀ i : RegIdx, i ≠ k → t.areg i = s.areg i

/-- Every byte of memory reads as before. -/
def SameMemory (s t : State) : Prop := ∀ a : Nat, readByte t.mem a = readByte s.mem a

/-- Two states that hold the same in everything the eight instructions read: D0, D1, D2, D5, A2, A7, PC, CCR, MEM
(10_state.md R22, R23). -/
def AgreeOnWorkingState (s t : State) : Prop :=
  t.dreg 0 = s.dreg 0 ∧ t.dreg 1 = s.dreg 1 ∧ t.dreg 2 = s.dreg 2 ∧ t.dreg 5 = s.dreg 5 ∧
  t.areg 2 = s.areg 2 ∧ t.areg 7 = s.areg 7 ∧ t.pc = s.pc ∧ t.ccr = s.ccr ∧ t.mem = s.mem

/-- Two outcomes of the same kind: next states in the given relation, or the same fault, or the same refusal. -/
def OutcomesRelated (R : State → State → Prop) (x y : Host.Outcome State Fault Refusal) : Prop :=
  match x, y with
  | .next s, .next t => R s t
  | .fault f, .fault g => f = g
  | .refused p, .refused q => p = q
  | _, _ => False

/-- Memory `m` holds the same bytes as the memory of `s` at every address the step of `s` reads (20_memory.md R55). -/
def AgreesWhereStepReads (s : State) (m : Memory) : Prop :=
  ∀ acc ∈ stepReads s, ∀ k < acc.width, m.byteAt (acc.addr + k) = s.mem.byteAt (acc.addr + k)

/-! ### Claims' own arithmetic, on natural numbers -/

/-- An n-bit number as a signed integer: `v - 2^n` when its top bit is set, else `v` (00_scope.md R10). -/
def signedOf (n v : Nat) : Int := if 2 ^ (n - 1) ≤ v then (v : Int) - 2 ^ n else v

/-- The `n` bytes from address `a` on as one number, the byte at `a` most significant (00_scope.md R11). -/
def bigEndianValue (m : Memory) (a : Nat) : Nat → Nat
  | 0 => 0
  | n + 1 => bigEndianValue m a n * 256 + (m.byteAt (a + n)).toNat

/-- Memory holds these bytes from address `a` on. -/
def HoldsBytes (m : Memory) (a : Nat) (bytes : List Byte) : Prop :=
  ∀ k (hk : k < bytes.length), m.byteAt (a + k) = bytes[k]

/-! ### Invariant and safe runs -/

/-- What every step keeps: memory in its canonical form (log 5), and never Z and N both set, since every handler that writes
them writes one value's sign (41_data_move.md R120, 42_arithmetic.md R130, R131, 43_compare.md R150). -/
def State.Inv (s : State) : Prop := s.mem.wf = true ∧ ¬(s.ccr.z = true ∧ s.ccr.n = true)

/-- The step of `s` raises no error that ends it (93_implementation_defined.md U18). -/
def SafeStep (s : State) : Prop := faultOf (step s) = none

/-- A run of `n` steps that ends in a next state: no step of it raised OutOfBounds. -/
def SafeRun (n : Nat) (s : State) : Prop := ∃ t, Sys2Proof.core.run n s = .next t

/-- The host operations that may change memory: `load_image`, `write_byte`, `write_word` (20_memory.md R57). -/
def HostOp.mayWriteMemory : HostOp → Bool
  | .loadImage _ _ => true
  | .writeByte _ _ => true
  | .writeWord _ _ => true
  | .step => false
  | .getData _ => false
  | .setData _ _ => false
  | .getAddr _ => false
  | .setAddr _ _ => false
  | .getPc => false
  | .setPc _ => false
  | .getFlag _ => false
  | .setFlag _ _ => false
  | .getCcr => false
  | .setCcr _ => false
  | .advancePc _ => false
  | .readByte _ => false
  | .readWord _ => false

end Sys2Proof.Machine
end

