-- ==== Sys2Proof/Certificates/Slice0/Obligations.lean ====
section
/-! DEFINITION. The statements for the provers, each `def Obligations.<Name> : Prop` (OBLIGATIONS.json lists them). -/

open Sys2Proof Sys2Proof.Machine

/-! ### Decoding and encoding -/

/-- The eight literals decode to their instructions with the fields they carry (30_encoding.md section 3;
95_test_vectors.md W10). -/
def Obligations.EightLiteralsDecode : Prop :=
  decodeOp 0x4E75 = some .rts ∧
  decodeOp 0x1081 = some (.moveB 0 1) ∧
  decodeOp 0xD442 = some (.addL 2 2) ∧
  decodeOp 0x91E7 = some (.subW 0 7) ∧
  decodeOp 0xB045 = some .cmpB ∧
  decodeOp 0x4EBA = some .jmp ∧
  decodeOp 0x6000 = some .braW ∧
  decodeOp 0x1111 = some (.bleB 17)

/-- Every word but the eight literals is an unknown opcode, and a step that fetches one reports it with the PC it was
fetched from and changes nothing: the state is the same, and the outcome is no fault (R87, R104). -/
def Obligations.OtherWordsAreUnknownOpcodes : Prop :=
  ∀ op : Word,
    op ∉ [0x4E75#16, 0x1081#16, 0xD442#16, 0x91E7#16, 0xB045#16, 0x4EBA#16, 0x6000#16, 0x1111#16] →
    decodeOp op = none ∧
    ∀ s : State, readWord s.mem s.pc.toNat = .ok op →
      step s = .next s ∧ (runStep s).2 = some { value := op, address := s.pc }

/-- The decoder gives an instruction exactly for the opcode word the encoder gives it, when it is well formed; and the
bytes of a well-formed instruction, with any displacement and whatever follows them, decode to it
(30_encoding.md sections 2, 3). That the map is literal is the spec's decision D7 (log 8). -/
def Obligations.DecodeAndEncodeAgree : Prop :=
  (∀ (op : Word) (i : Instr), decodeOp op = some i ↔ i.wellFormed = true ∧ encodeOp i = op) ∧
  (∀ (i : Instr) (d16 : Int) (rest : List Byte), i.wellFormed = true →
    decode (encodeBytes i d16 ++ rest) = .ok i)

/-! ### The step -/

/-- One step in full: the fetch's fault; the report of a decode miss; else the decoded instruction on the same state, and
no report. The last clause says the last case of the bytes at PC (R101). -/
def Obligations.StepFetchesDecodesExecutes : Prop :=
  (∀ (s : State) (f : Fault), readWord s.mem s.pc.toNat = .error f →
    step s = .fault f ∧ (runStep s).2 = none) ∧
  (∀ (s : State) (op : Word), readWord s.mem s.pc.toNat = .ok op → decodeOp op = none →
    step s = .next s ∧ (runStep s).2 = some { value := op, address := s.pc }) ∧
  (∀ (s : State) (op : Word) (i : Instr), readWord s.mem s.pc.toNat = .ok op → decodeOp op = some i →
    step s = exec i s ∧ (runStep s).2 = none) ∧
  (∀ (s : State) (i : Instr), s.pc.toNat + 2 ≤ Config.memSize →
    decode [s.mem.byteAt s.pc.toNat, s.mem.byteAt (s.pc.toNat + 1)] = .ok i →
    step s = exec i s ∧ (runStep s).2 = none)

/-- The fetch reads the big-endian word at PC and moves nothing; when it does not fit, the step ends in
OutOfBounds(PC, 2) and no state changes (R102). -/
def Obligations.FetchReadsWordAtPc : Prop :=
  ∀ s : State,
    (s.pc.toNat + 2 ≤ Config.memSize →
      ∃ op, fetchOpcode s = .ok op ∧
        op.toNat = (s.mem.byteAt s.pc.toNat).toNat * 256 + (s.mem.byteAt (s.pc.toNat + 1)).toNat ∧
        (decodeOp op = none → step s = .next s) ∧
        ∀ i, decodeOp op = some i → step s = exec i s) ∧
    (Config.memSize < s.pc.toNat + 2 →
      step s = .fault (.outOfBounds s.pc.toNat 2) ∧ stateAfter s = s)

/-- A step can end in a fault only by its fetch, by RTS's stack read and by BRA.W's extension read, exactly when that read does
not fit; a step that faults leaves the state as it was and answers the host with an OutOfBounds (R201). -/
def Obligations.OnlyFetchReturnAndBranchFault : Prop :=
  ∀ s : State,
    ((∃ f, step s = .fault f) ↔
      Config.memSize < s.pc.toNat + 2 ∨
      (readWord s.mem s.pc.toNat = .ok 0x4E75 ∧ Config.memSize < (s.areg 7).toNat + 4) ∨
      (readWord s.mem s.pc.toNat = .ok 0x6000 ∧ Config.memSize < s.pc.toNat + 4)) ∧
    (∀ f, step s = .fault f → stateAfter s = s ∧ ∃ a n, act .step s = (s, .outOfBounds a n)) ∧
    (∀ i : Instr, i ≠ .rts → i ≠ .braW → ∃ t, exec i s = .next t)

/-- A fault names the first address and the width of the access that did not fit, the fetch's first: PC and 2; else A7 and 4 at
RTS; else PC + 2 and 2 at BRA.W (60_exceptions.md sections 1 and 2; what an error carries and which comes first are the spec's
decisions D16 and D28, log 16). -/
def Obligations.FaultNamesItsAccess : Prop :=
  ∀ (s : State) (f : Fault), step s = .fault f →
    (Config.memSize < s.pc.toNat + 2 → f = .outOfBounds s.pc.toNat 2) ∧
    (readWord s.mem s.pc.toNat = .ok 0x4E75 → f = .outOfBounds (s.areg 7).toNat 4) ∧
    (readWord s.mem s.pc.toNat = .ok 0x6000 → f = .outOfBounds (s.pc.toNat + 2) 2) ∧
    ∀ a n, f = .outOfBounds a n → act .step s = (s, .outOfBounds a n)

/-- A step ends in one of three outcomes: ok; UnknownOpcode with the fetched word and its address, the state unchanged;
OutOfBounds with an access that does not fit, the state unchanged. The host's step operation answers that outcome. No step is
refused (40_fetch_decode.md section 4, 10_state.md section 9). What an outcome carries is the spec's decision D16, D17
(log 15, log 16). -/
def Obligations.StepEndsInOneOfThreeOutcomes : Prop :=
  ∀ s : State,
    (∃ t, step s = .next t ∧ (runStep s).2 = none ∧ stateAfter s = t ∧ act .step s = (t, .ok)) ∨
    (∃ op, fetchOpcode s = .ok op ∧ decodeOp op = none ∧ step s = .next s ∧
      (runStep s).2 = some { value := op, address := s.pc } ∧ stateAfter s = s ∧
      act .step s = (s, .unknownOpcode { value := op, address := s.pc })) ∨
    (∃ a n, step s = .fault (.outOfBounds a n) ∧ (runStep s).2 = none ∧ Config.memSize < a + n ∧ stateAfter s = s ∧
      act .step s = (s, .outOfBounds a n))

/-- After a fault or a report, a further step gives the same outcome and the same report again: nothing is latched and
nothing has moved (40_fetch_decode.md section 4, the spec's own derivation; log 15, log 16). -/
def Obligations.FaultOrUnknownStepRepeats : Prop :=
  ∀ s : State, ((∃ f, step s = .fault f) ∨ (runStep s).2 ≠ none) →
    stateAfter s = s ∧ runStep (stateAfter s) = runStep s

/-- A run that meets an unknown opcode stays there for ever, and is no fault (93_implementation_defined.md U5). -/
def Obligations.UnknownOpcodeRunsForEver : Prop :=
  ∀ (s : State) (op : Word), readWord s.mem s.pc.toNat = .ok op → decodeOp op = none →
    ∀ n : Nat, Sys2Proof.core.run n s = .next s

/-! ### Data move and arithmetic -/

/-- MOVE.B, for every source and destination and every state, completes: the low byte of the destination becomes that of
the source, its upper 24 bits stay, Z and N come from the byte, C and V are cleared, and nothing else changes, PC included.
Its literal is 0x1081, with D0 and D1 (R120). -/
def Obligations.MoveByteReplacesLowByte : Prop :=
  (∀ (src dst : RegIdx) (s : State),
    ∃ t, exec (.moveB src dst) s = .next t ∧
      (t.dreg dst).toNat = (s.dreg dst).toNat / 256 * 256 + (s.dreg src).toNat % 256 ∧
      t.dreg dst &&& 0xFFFFFF00#32 = s.dreg dst &&& 0xFFFFFF00#32 ∧
      t.ccr.z = decide ((s.dreg src).toNat % 256 = 0) ∧
      t.ccr.n = decide (128 ≤ (s.dreg src).toNat % 256) ∧
      t.ccr.c = false ∧ t.ccr.v = false ∧
      t.pc = s.pc ∧ SameDregsExcept dst s t ∧ SameAregs s t ∧ SameMemory s t) ∧
  (∀ s : State, readWord s.mem s.pc.toNat = .ok 0x1081 → step s = exec (.moveB 0 1) s)

/-- ADD.L, for every source and destination and every state, completes: the destination becomes the sum modulo 2^32, C says
whether the sum exceeds 0xFFFFFFFF, N is bit 31 of the truncated sum, Z whether it is zero, V is cleared, and nothing else
changes, PC included. Its literal is 0xD442, with D2 and D2 (R130). -/
def Obligations.AddLongAddsModulo : Prop :=
  (∀ (src dst : RegIdx) (s : State),
    let sum := (s.dreg dst).toNat + (s.dreg src).toNat
    ∃ t, exec (.addL src dst) s = .next t ∧
      (t.dreg dst).toNat = sum % 2 ^ 32 ∧
      t.ccr.c = decide (sum > 0xFFFFFFFF) ∧
      t.ccr.n = decide (2 ^ 31 ≤ sum % 2 ^ 32) ∧
      t.ccr.z = decide (sum % 2 ^ 32 = 0) ∧
      t.ccr.v = false ∧
      t.pc = s.pc ∧ SameDregsExcept dst s t ∧ SameAregs s t ∧ SameMemory s t) ∧
  (∀ s : State, readWord s.mem s.pc.toNat = .ok 0xD442 → step s = exec (.addL 2 2) s)

/-- SUB.W, for every source and destination and every state, completes: the destination address register becomes the
signed 16-bit difference destination minus source, truncated to 16 bits with the upper half cleared; Z and N say whether the
exact difference is zero or negative; C and V are cleared; nothing else changes, PC included. Operand order, width, store and
the values of C and V are the spec's decisions D11 and D12 (log 11, log 12). -/
def Obligations.SubtractWordFromAddressRegister : Prop :=
  (∀ (src dst : RegIdx) (s : State),
    let x := signedOf 16 ((s.areg dst).toNat % 65536)
    let y := signedOf 16 ((s.dreg src).toNat % 65536)
    ∃ t, exec (.subW src dst) s = .next t ∧
      ((t.areg dst).toNat : Int) = (x - y) % 65536 ∧
      t.ccr.z = decide (x = y) ∧ t.ccr.n = decide (x < y) ∧ t.ccr.c = false ∧ t.ccr.v = false ∧
      t.pc = s.pc ∧ SameDregs s t ∧ SameAregsExcept dst s t ∧ SameMemory s t) ∧
  (∀ s : State, readWord s.mem s.pc.toNat = .ok 0x91E7 → step s = exec (.subW 0 7) s)

/-! ### Compare -/

/-- CMP.B completes on every state: it sets N and C when D5's low byte is below D0's, C alone when above, Z alone when equal,
clears V, leaves C the opposite of Z, and changes no register, no byte and not PC. The two registers, the direction and the
unlisted flags are the spec's decisions D9 and D10 (log 10). -/
def Obligations.CompareByteSetsFlagsOnly : Prop :=
  (∀ s : State,
    let dst := (s.dreg 5).toNat % 256
    let src := (s.dreg 0).toNat % 256
    ∃ t, exec .cmpB s = .next t ∧
      (dst < src → t.ccr = { n := true, z := false, v := false, c := true }) ∧
      (src < dst → t.ccr = { n := false, z := false, v := false, c := true }) ∧
      (dst = src → t.ccr = { n := false, z := true, v := false, c := false }) ∧
      t.ccr.c = !t.ccr.z ∧
      t.pc = s.pc ∧ SameDregs s t ∧ SameAregs s t ∧ SameMemory s t) ∧
  (∀ s : State, readWord s.mem s.pc.toNat = .ok 0xB045 → step s = exec .cmpB s)

/-! ### Control transfer -/

/-- RTS completes when the four bytes at A7 are in memory: PC becomes their big-endian value, A7 grows by 4, V is cleared, Z, N
and C stay, and nothing else changes. When they are not, it ends in OutOfBounds(A7, 4). That A7 is not PC and that the long is
big-endian are the spec's decisions D1 and D6 (log 2, log 7). -/
def Obligations.ReturnPopsProgramCounter : Prop :=
  ∀ s : State,
    ((s.areg 7).toNat + 4 ≤ Config.memSize →
      ∃ t, exec .rts s = .next t ∧
        t.pc.toNat = bigEndianValue s.mem (s.areg 7).toNat 4 ∧
        (t.areg 7).toNat = (s.areg 7).toNat + 4 ∧
        t.ccr.v = false ∧ t.ccr.z = s.ccr.z ∧ t.ccr.n = s.ccr.n ∧ t.ccr.c = s.ccr.c ∧
        SameDregs s t ∧ SameAregsExcept 7 s t ∧ SameMemory s t) ∧
    (Config.memSize < (s.areg 7).toNat + 4 → exec .rts s = .fault (.outOfBounds (s.areg 7).toNat 4))

/-- JMP completes on every state: PC becomes all 32 bits of A2, unchecked, and nothing else changes. That the register is A2 is
the spec's decision D8 (log 9). -/
def Obligations.JumpTakesAddressRegister : Prop :=
  ∀ s : State, ∃ t, exec .jmp s = .next t ∧ t.pc = s.areg 2 ∧ t.ccr = s.ccr ∧
    SameDregs s t ∧ SameAregs s t ∧ SameMemory s t

/-- BRA.W completes when its extension word is in memory: PC becomes PC + 2 plus the signed 16-bit extension word, modulo
2^32, and nothing else changes. When it is not, the instruction ends in OutOfBounds(PC + 2, 2). The base PC + 2 is the spec's
decision D13 (log 13). -/
def Obligations.BranchAlwaysAddsExtensionWord : Prop :=
  ∀ s : State,
    (s.pc.toNat + 4 ≤ Config.memSize →
      ∃ t, exec .braW s = .next t ∧
        (t.pc.toNat : Int) =
          ((s.pc.toNat : Int) + 2 + signedOf 16 (bigEndianValue s.mem (s.pc.toNat + 2) 2)) % 2 ^ 32 ∧
        t.ccr = s.ccr ∧ SameDregs s t ∧ SameAregs s t ∧ SameMemory s t) ∧
    (Config.memSize < s.pc.toNat + 4 → exec .braW s = .fault (.outOfBounds (s.pc.toNat + 2) 2))

/-- A branch assembled with displacement d, lying at PC, steps to PC + 2 + d modulo 2^32 (30_encoding.md section 5,
95_test_vectors.md W2; base: decision D13, log 13). -/
def Obligations.AssembledBranchReachesDisplacement : Prop :=
  ∀ (s : State) (d : Int), -32768 ≤ d → d ≤ 32767 → s.pc.toNat + 4 ≤ Config.memSize →
    HoldsBytes s.mem s.pc.toNat (encodeBytes .braW d) →
    ∃ t, step s = .next t ∧ (t.pc.toNat : Int) = ((s.pc.toNat : Int) + 2 + d) % 2 ^ 32 ∧
      t.ccr = s.ccr ∧ SameDregs s t ∧ SameAregs s t ∧ SameMemory s t

/-- BLE.B completes for every displacement byte and every state: when Z is set, or exactly one of N and V is, PC becomes PC plus
the signed displacement modulo 2^32, else PC stays; C plays no part, no flag is written and nothing else changes. The base PC
and the branch not taken are the spec's decisions D14 and D15 (log 14). -/
def Obligations.BranchIfLessOrEqual : Prop :=
  ∀ (disp8 : Byte) (s : State),
    ∃ t, exec (.bleB disp8) s = .next t ∧
      ((s.ccr.z = true ∨ s.ccr.n ≠ s.ccr.v) →
        (t.pc.toNat : Int) = ((s.pc.toNat : Int) + signedOf 8 disp8.toNat) % 2 ^ 32) ∧
      (¬(s.ccr.z = true ∨ s.ccr.n ≠ s.ccr.v) → t.pc = s.pc) ∧
      t.ccr = s.ccr ∧ SameDregs s t ∧ SameAregs s t ∧ SameMemory s t

/-! ### Instructions that leave PC where it is, run again -/

/-- `n` steps at ADD.L D2,D2 multiply D2 by 2^n modulo 2^32 and leave PC there (40_fetch_decode.md section 4, the spec's own
derivation). -/
def Obligations.RepeatedAddDoublesEachStep : Prop :=
  ∀ (n : Nat) (s : State), readWord s.mem s.pc.toNat = .ok 0xD442 →
    ∃ t, Sys2Proof.core.run n s = .next t ∧ (t.dreg 2).toNat = (s.dreg 2).toNat * 2 ^ n % 2 ^ 32 ∧
      t.pc = s.pc ∧ SameDregsExcept 2 s t ∧ SameAregs s t ∧ SameMemory s t

/-- `n + 1` steps at SUB.W D0,A7 leave in A7 its low half minus n + 1 times D0, modulo 2^16, and PC there
(40_fetch_decode.md section 4, the spec's own derivation; decision D11, log 11). -/
def Obligations.RepeatedSubtractGoesOn : Prop :=
  ∀ (n : Nat) (s : State), readWord s.mem s.pc.toNat = .ok 0x91E7 →
    ∃ t, Sys2Proof.core.run (n + 1) s = .next t ∧
      ((t.areg 7).toNat : Int) = ((s.areg 7).toNat - (n + 1) * (s.dreg 0).toNat : Int) % 65536 ∧
      t.pc = s.pc ∧ SameDregs s t ∧ SameAregsExcept 7 s t ∧ SameMemory s t

/-- One step at MOVE.B or CMP.B, or at a BLE.B not taken, completes, and a further step from there gives the same state again
(40_fetch_decode.md section 4, 70_reset_and_hazards.md section 3, the spec's own derivation; decision D15, log 14). -/
def Obligations.StationaryStepsSettle : Prop :=
  ∀ s : State,
    (readWord s.mem s.pc.toNat = .ok 0x1081 ∨ readWord s.mem s.pc.toNat = .ok 0xB045 ∨
      (readWord s.mem s.pc.toNat = .ok 0x1111 ∧ s.ccr.z = false ∧ s.ccr.n = s.ccr.v)) →
    ∃ t, step s = .next t ∧ t.pc = s.pc ∧ step t = .next t

/-! ### Whole-machine rules -/

/-- No instruction and no step changes memory, and neither does any host operation but load_image, write_byte and write_word
(R57). -/
def Obligations.OnlyTheHostWritesMemory : Prop :=
  (∀ (i : Instr) (s t : State), exec i s = .next t → t.mem = s.mem) ∧
  (∀ s t : State, step s = .next t → t.mem = s.mem) ∧
  (∀ (op : HostOp) (s : State), op.mayWriteMemory = false → (act op s).1.mem = s.mem)

/-- Every step keeps the invariant: memory in its canonical form, and never Z and N both set. The second clause rests on the
flag values of D10 and D12 (log 5, log 10, log 12). -/
def Obligations.StepKeepsInvariant : Prop :=
  ∀ s t : State, s.Inv → step s = .next t → t.Inv

/-- The reset state meets the invariant (log 4, log 5). -/
def Obligations.ResetMeetsInvariant : Prop := State.reset.Inv

/-- Whatever sequence of host operations, steps among them, runs from a state with canonical memory, memory stays canonical; so
it is from reset (the canonical form is the model's own, log 5). -/
def Obligations.EverySessionKeepsMemoryCanonical : Prop :=
  (∀ (ops : List HostOp) (s : State), s.mem.wf = true → (session ops s).mem.wf = true) ∧
  (∀ ops : List HostOp, (session ops State.reset).mem.wf = true)

/-- No step writes D0, D3 to D7, A0 to A6, or D1[31:8] (10_state.md sections 2 and 3, the tables the spec derives from its
instruction rules). -/
def Obligations.StepsLeaveUnwrittenRegisters : Prop :=
  ∀ s t : State, step s = .next t →
    (∀ i : RegIdx, i ≠ 1 → i ≠ 2 → t.dreg i = s.dreg i) ∧
    t.dreg 1 &&& 0xFFFFFF00#32 = s.dreg 1 &&& 0xFFFFFF00#32 ∧
    (∀ i : RegIdx, i ≠ 7 → t.areg i = s.areg i)

/-- No step reads D3, D4, D6, D7, A0, A1 or A3 to A6: two states that agree on everything else take steps of the same outcome,
with the same report, into states that agree on everything else (10_state.md sections 2 and 3; decisions D8, D9,
log 9, log 10). -/
def Obligations.UnreadRegistersDoNotInfluenceSteps : Prop :=
  ∀ s t : State, AgreeOnWorkingState s t →
    OutcomesRelated AgreeOnWorkingState (step s) (step t) ∧ (runStep s).2 = (runStep t).2

/-- No instruction but BLE.B reads the flags: with the flags replaced it has the same outcome on every register, PC and memory,
and each flag it either leaves as it was from every state, or gives a value that no flag before it plays a part in. BLE.B reads
Z, N and V, each of which alone makes it branch, and not C: with C replaced it has the same outcome in everything but C, which
it leaves. C is written: some instruction changes it. The host can read all four flags of the CCR (R31). -/
def Obligations.OnlyBranchIfLessOrEqualReadsFlags : Prop :=
  (∀ (i : Instr) (s : State) (f : Ccr), (∀ disp8, i ≠ .bleB disp8) →
    OutcomesRelated (fun t t' => t'.d = t.d ∧ t'.a = t.a ∧ t'.pc = t.pc ∧ t'.mem = t.mem)
      (exec i s) (exec i (s.setCcr f))) ∧
  (∀ (i : Instr) (g : Flag), (∀ disp8, i ≠ .bleB disp8) →
    (∀ s t : State, exec i s = .next t → getFlag g t = getFlag g s) ∨
    (∀ (s t t' : State) (f : Ccr), exec i s = .next t → exec i (s.setCcr f) = .next t' → getFlag g t' = getFlag g t)) ∧
  (∀ (disp8 : Byte) (s : State) (c : Bool),
    OutcomesRelated (fun t t' => t' = t.setCcr { t.ccr with c := c })
      (exec (.bleB disp8) s) (exec (.bleB disp8) (s.setCcr { s.ccr with c := c }))) ∧
  (∃ (i : Instr) (s t : State), exec i s = .next t ∧ t.ccr.c ≠ s.ccr.c) ∧
  (∀ (s : State) (c : Bool) (f : Ccr),
    f ∈ [Ccr.mk true false false c, Ccr.mk false true false c, Ccr.mk false false true c] →
    (nextOf (exec (.bleB 0x11) (s.setCcr f))).map State.pc ≠
      (nextOf (exec (.bleB 0x11) (s.setCcr (Ccr.mk false false false c)))).map State.pc) ∧
  (∀ s t : State, (act .getCcr s).2 = (act .getCcr t).2 → s.ccr = t.ccr)

/-- No step sets V: a step from a state with V clear leaves V clear, and MOVE.B, ADD.L, SUB.W, CMP.B and RTS clear it
(42_arithmetic.md, end; decisions D10 and D12, log 10, log 12). -/
def Obligations.NoStepSetsOverflow : Prop :=
  (∀ s t : State, step s = .next t → s.ccr.v = false → t.ccr.v = false) ∧
  (∀ (i : Instr) (s t : State), exec i s = .next t → i ≠ .jmp → i ≠ .braW → (∀ disp8, i ≠ .bleB disp8) →
    t.ccr.v = false)

/-- A step reads the two bytes at PC, and beside them RTS the four at A7 or BRA.W the two at PC + 2 and no other anything, so at
most two reads (20_memory.md section 3, 40_fetch_decode.md section 4). -/
def Obligations.StepMakesAtMostTwoReads : Prop :=
  ∀ s : State,
    (stepReads s).length ≤ 2 ∧
    (stepReads s).head? = some { addr := s.pc.toNat, width := 2 } ∧
    (readWord s.mem s.pc.toNat = .ok 0x4E75 →
      stepReads s = [{ addr := s.pc.toNat, width := 2 }, { addr := (s.areg 7).toNat, width := 4 }]) ∧
    (readWord s.mem s.pc.toNat = .ok 0x6000 →
      stepReads s = [{ addr := s.pc.toNat, width := 2 }, { addr := s.pc.toNat + 2, width := 2 }]) ∧
    (readWord s.mem s.pc.toNat ≠ .ok 0x4E75 → readWord s.mem s.pc.toNat ≠ .ok 0x6000 →
      (stepReads s).length = 1)

/-- A step depends on no byte of memory but those it reads: with any other memory that holds the same bytes there, it has the
same outcome and the same report, only the memory carried along differs (20_memory.md section 3). -/
def Obligations.StepDependsOnlyOnBytesItReads : Prop :=
  ∀ (s : State) (m : Memory), AgreesWhereStepReads s m →
    OutcomesRelated (fun t t' => t' = t.setMem m) (step s) (step (s.setMem m)) ∧
    (runStep (s.setMem m)).2 = (runStep s).2

/-- A step is safe exactly when every read it makes lies in memory (20_memory.md sections 2 and 3,
93_implementation_defined.md U18; bounds on unbounded integers: decision D5, log 6). -/
def Obligations.StepIsSafeIffItsReadsFit : Prop :=
  ∀ s : State, SafeStep s ↔ ∀ acc ∈ stepReads s, acc.addr + acc.width ≤ Config.memSize

/-! ### Memory -/

/-- `read_byte` gives the byte below MEM_SIZE and OutOfBounds(a, 1) from there on; it is `MemRead(a, 1)`. The host is answered
the same value or the same error, and its read changes nothing (R51). -/
def Obligations.ReadByteIsBoundsChecked : Prop :=
  (∀ (m : Memory) (a : Nat),
    (a < Config.memSize → ∃ b, readByte m a = .ok b ∧ b = m.byteAt a ∧ b.toNat = bigEndianValue m a 1) ∧
    (Config.memSize ≤ a → readByte m a = .error (.outOfBounds a 1))) ∧
  (∀ (s : State) (a : Nat),
    (a < Config.memSize → act (.readByte a) s = (s, .value (s.mem.byteAt a).toNat)) ∧
    (Config.memSize ≤ a → act (.readByte a) s = (s, .outOfBounds a 1)))

/-- Word and long reads succeed exactly when all their bytes are in memory, give the big-endian value, and fail with
OutOfBounds(a, n) else; the long is its two words, high word first, and no access needs alignment. The host's read_word is
answered the same value or the same error, and changes nothing (20_memory.md section 2, 10_state.md section 9; decisions D5,
D6, D21, log 6, log 7, log 19). -/
def Obligations.WideReadsAreBigEndian : Prop :=
  (∀ (m : Memory) (a : Nat),
    (a + 2 ≤ Config.memSize → ∃ w, readWord m a = .ok w ∧ w.toNat = bigEndianValue m a 2) ∧
    (Config.memSize < a + 2 → readWord m a = .error (.outOfBounds a 2)) ∧
    (a + 4 ≤ Config.memSize → ∃ v hi lo, readLong m a = .ok v ∧ v.toNat = bigEndianValue m a 4 ∧
      readWord m a = .ok hi ∧ readWord m (a + 2) = .ok lo ∧ v = hi ++ lo) ∧
    (Config.memSize < a + 4 → readLong m a = .error (.outOfBounds a 4))) ∧
  (∀ (s : State) (a : Nat),
    (a + 2 ≤ Config.memSize → act (.readWord a) s = (s, .value (bigEndianValue s.mem a 2))) ∧
    (Config.memSize < a + 2 → act (.readWord a) s = (s, .outOfBounds a 2)))

/-- Two canonical memories that read the same byte at every address of the array are equal (the canonical form is the model's
own, log 5). -/
def Obligations.CanonicalMemoriesAreEqualByBytes : Prop :=
  ∀ m m' : Memory, m.wf = true → m'.wf = true → (∀ a < Config.memSize, m.byteAt a = m'.byteAt a) → m = m'

/-- `load_image` copies every byte when the image fits and leaves every other byte, and when it does not fit answers
ImageTooLarge and changes nothing; no step answers so (R58, R203). -/
def Obligations.LoadImageCopiesAllOrNothing : Prop :=
  (∀ (bytes : List Byte) (offset : Nat) (s : State), s.mem.wf = true →
    (offset + bytes.length ≤ Config.memSize →
      ∃ t, act (.loadImage bytes offset) s = (t, .ok) ∧
        (∀ k (hk : k < bytes.length), t.mem.byteAt (offset + k) = bytes[k]) ∧
        (∀ a, (a < offset ∨ offset + bytes.length ≤ a) → t.mem.byteAt a = s.mem.byteAt a) ∧
        t.pc = s.pc ∧ t.ccr = s.ccr ∧ SameDregs s t ∧ SameAregs s t) ∧
    (Config.memSize < offset + bytes.length →
      act (.loadImage bytes offset) s = (s, .imageTooLarge))) ∧
  (∀ s : State, (act .step s).2 ≠ .imageTooLarge)

/-- A host word write in bounds puts the high byte first, reads back, and leaves every other byte and every register; a byte
write likewise; out of bounds either answers OutOfBounds and writes nothing (20_memory.md section 4; decision D23, log 18). -/
def Obligations.HostWritesReadBack : Prop :=
  ∀ (s : State) (a v : Nat), s.mem.wf = true →
    (a + 2 ≤ Config.memSize → ∃ t, act (.writeWord a v) s = (t, .ok) ∧
      (t.mem.byteAt a).toNat = v / 256 % 256 ∧ (t.mem.byteAt (a + 1)).toNat = v % 256 ∧
      (act (.readWord a) t).2 = .value (v % 65536) ∧
      (∀ a', a' ≠ a → a' ≠ a + 1 → t.mem.byteAt a' = s.mem.byteAt a') ∧
      t.pc = s.pc ∧ t.ccr = s.ccr ∧ SameDregs s t ∧ SameAregs s t) ∧
    (Config.memSize < a + 2 → act (.writeWord a v) s = (s, .outOfBounds a 2)) ∧
    (a + 1 ≤ Config.memSize → ∃ t, act (.writeByte a v) s = (t, .ok) ∧
      (act (.readByte a) t).2 = .value (v % 256) ∧
      (∀ a', a' ≠ a → t.mem.byteAt a' = s.mem.byteAt a') ∧
      t.pc = s.pc ∧ t.ccr = s.ccr ∧ SameDregs s t ∧ SameAregs s t) ∧
    (Config.memSize < a + 1 → act (.writeByte a v) s = (s, .outOfBounds a 1))

/-- A word the host writes at PC is the one the next step fetches: when it decodes, that step runs it (20_memory.md
section 7; decision D20, log 17). -/
def Obligations.FetchSeesHostWrite : Prop :=
  ∀ (s : State) (v : Nat) (i : Instr), s.mem.wf = true → s.pc.toNat + 2 ≤ Config.memSize →
    decodeOp (BitVec.ofNat 16 v) = some i →
    ∃ t, act (.writeWord s.pc.toNat v) s = (t, .ok) ∧ t.pc = s.pc ∧ step t = exec i t

/-- The very next step runs the instruction that `withFetchWord` places, with every register but PC as it was, and PC too where
four bytes fit at it (the model's own, log 20). -/
def Obligations.PlacedWordRunsNext : Prop :=
  ∀ (s : State) (nbits w : Nat) (i : Instr), s.mem.wf = true → decodeTableWord nbits w = some i →
    step (s.withFetchWord nbits w) = exec i (s.withFetchWord nbits w) ∧
    SameDregs s (s.withFetchWord nbits w) ∧ SameAregs s (s.withFetchWord nbits w) ∧
    (s.withFetchWord nbits w).ccr = s.ccr ∧
    (s.pc.toNat + 4 ≤ Config.memSize → (s.withFetchWord nbits w).pc = s.pc)

/-! ### Registers, reset and the host's view -/

/-- Sign extension, zero extension and truncation are the arithmetic of R10, at every width. -/
def Obligations.ExtensionAndTruncation : Prop :=
  ∀ n : Nat,
    (∀ v : BitVec n, sext v = if v.msb then (v.toNat : Int) - 2 ^ n else v.toNat) ∧
    (∀ v : BitVec n, zext v = v.toNat ∧ zext v < 2 ^ n) ∧
    (∀ x : Int, ((trunc n x).toNat : Int) = x % 2 ^ n ∧ (trunc n x).toNat < 2 ^ n)

/-- The state at reset: every register and flag 0, every byte of the array 0x00, nothing outside it (10_state.md section 8;
the values are the spec's decision D3, log 4, log 5). -/
def Obligations.ResetIsZeroEverywhere : Prop :=
  (∀ i : RegIdx, State.reset.dreg i = 0 ∧ State.reset.areg i = 0) ∧
  State.reset.pc = 0 ∧ State.reset.ccr = { n := false, z := false, v := false, c := false } ∧
  (∀ a < Config.memSize, readByte State.reset.mem a = .ok 0) ∧
  (∀ a, Config.memSize ≤ a → readByte State.reset.mem a = .error (.outOfBounds a 1))

/-- The host's writes of one register store the value modulo 2^32 there and change nothing else; in particular a write of A7
leaves PC and a write of PC leaves A7 (10_state.md sections 4 and 9; decisions D1 and D18, log 2, log 17). -/
def Obligations.HostRegisterWritesAreIsolated : Prop :=
  ∀ (s : State) (i : RegIdx) (v : Nat),
    (∃ t, act (.setData i v) s = (t, .ok) ∧ (act (.getData i) t).2 = .value (v % 2 ^ 32) ∧
      t.pc = s.pc ∧ t.ccr = s.ccr ∧ SameDregsExcept i s t ∧ SameAregs s t ∧ SameMemory s t) ∧
    (∃ t, act (.setAddr i v) s = (t, .ok) ∧ (act (.getAddr i) t).2 = .value (v % 2 ^ 32) ∧
      t.pc = s.pc ∧ t.ccr = s.ccr ∧ SameDregs s t ∧ SameAregsExcept i s t ∧ SameMemory s t) ∧
    (∃ t, act (.setPc v) s = (t, .ok) ∧ (act .getPc t).2 = .value (v % 2 ^ 32) ∧
      t.ccr = s.ccr ∧ SameDregs s t ∧ SameAregs s t ∧ SameMemory s t)

/-- A host write of one flag sets that flag and no other, and changes nothing else (10_state.md section 9; log 17). -/
def Obligations.HostFlagWritesAreIsolated : Prop :=
  ∀ (s : State) (f : Flag) (b : Bool),
    ∃ t, act (.setFlag f b) s = (t, .ok) ∧ (act (.getFlag f) t).2 = .flag b ∧
      (∀ g, g ≠ f → (act (.getFlag g) t).2 = (act (.getFlag g) s).2) ∧
      t.pc = s.pc ∧ SameDregs s t ∧ SameAregs s t ∧ SameMemory s t

/-- The whole CCR: a write sets C, V, Z, N from bits 0 to 3 and ignores bits 15:4, which read 0; writing back what was read
changes nothing (10_state.md sections 5 and 9; the layout is the spec's decision D2, log 3). -/
def Obligations.WholeCcrHasFourBits : Prop :=
  (∀ (s : State) (v : Nat), ∃ t, act (.setCcr v) s = (t, .ok) ∧
    t.ccr.c = v.testBit 0 ∧ t.ccr.v = v.testBit 1 ∧ t.ccr.z = v.testBit 2 ∧ t.ccr.n = v.testBit 3 ∧
    (act .getCcr t).2 = .value (v % 16) ∧
    t.pc = s.pc ∧ SameDregs s t ∧ SameAregs s t ∧ SameMemory s t) ∧
  (∀ s : State, s.ccr.toWord.toNat < 16 ∧ act (.setCcr s.ccr.toWord.toNat) s = (s, .ok))

/-- `advance_pc` adds a signed number to PC modulo 2^32 and changes nothing else; two advances are one by the sum
(10_state.md section 4; decision D18, log 17). -/
def Obligations.AdvancePcAddsModulo : Prop :=
  (∀ (s : State) (delta : Int), ∃ t, act (.advancePc delta) s = (t, .ok) ∧
    (t.pc.toNat : Int) = ((s.pc.toNat : Int) + delta) % 2 ^ 32 ∧
    t.ccr = s.ccr ∧ SameDregs s t ∧ SameAregs s t ∧ SameMemory s t) ∧
  (∀ (s : State) (d e : Int),
    (act (.advancePc e) (act (.advancePc d) s).1).1 = (act (.advancePc (d + e)) s).1)

/-- The host's reads change no state, whether they succeed or fail (20_memory.md section 2, the spec's own derivation). -/
def Obligations.HostReadsHaveNoEffect : Prop :=
  ∀ (s : State) (i : RegIdx) (f : Flag) (a : Nat) (op : HostOp),
    op ∈ [.getData i, .getAddr i, .getPc, .getFlag f, .getCcr, .readByte a, .readWord a] → (act op s).1 = s
end

