-- ==== Sys2Proof/Laws/Flags.lean ====
section
/-! SUPPORT. What the flag computations can give. -/

namespace Sys2Proof.Machine

/-- The host's view of the CCR as a number (10_state.md R42). -/
theorem Ccr.toWord_toNat (f : Ccr) :
    f.toWord.toNat = 8 * b2i f.n + 4 * b2i f.z + 2 * b2i f.v + b2i f.c := by
  obtain ⟨n, z, v, c⟩ := f
  cases n <;> cases z <;> cases v <;> cases c <;> rfl

theorem moveByteFlags_not_both (b : Byte) : ¬((moveByteFlags b).z = true ∧ (moveByteFlags b).n = true) := by
  rintro ⟨hz, hn⟩
  have : b = 0 := by simpa [moveByteFlags] using hz
  simp [moveByteFlags, this] at hn

theorem addLongFlags_not_both (x : Int) : ¬((addLongFlags x).z = true ∧ (addLongFlags x).n = true) := by
  rintro ⟨hz, hn⟩
  have : trunc 32 x = 0 := by simpa [addLongFlags] using hz
  simp [addLongFlags, this] at hn

theorem subWordFlags_not_both (r : Int) : ¬((subWordFlags r).z = true ∧ (subWordFlags r).n = true) := by
  unfold subWordFlags
  split
  · simp
  · split <;> simp

theorem compareByteFlags_not_both (x y : Byte) :
    ¬((compareByteFlags x y).z = true ∧ (compareByteFlags x y).n = true) := by
  unfold compareByteFlags
  split
  · simp
  · split <;> simp

@[simp] theorem moveByteFlags_v (b : Byte) : (moveByteFlags b).v = false := rfl
@[simp] theorem addLongFlags_v (x : Int) : (addLongFlags x).v = false := rfl
@[simp] theorem subWordFlags_v (r : Int) : (subWordFlags r).v = false := by
  unfold subWordFlags
  split
  · rfl
  · split <;> rfl
@[simp] theorem compareByteFlags_v (x y : Byte) : (compareByteFlags x y).v = false := by
  unfold compareByteFlags
  split
  · rfl
  · split <;> rfl

end Sys2Proof.Machine
end

