-- ==== Sys2Proof/Laws/Memory.lean ====
section
/-! SUPPORT. The memory array: read after write, and that every operation keeps the canonical form. -/

namespace Sys2Proof.Machine

/-- D4's bound: a word fits, and every address is a 32-bit value (00_scope.md R7). -/
theorem memSize_bounds : 2 ≤ Config.memSize ∧ Config.memSize ≤ 2 ^ 32 := by decide

@[simp] theorem Memory.wfFrom_nil (lo : Nat) : Memory.wfFrom lo [] = true := rfl

@[simp] theorem Memory.wfFrom_cons {lo k : Nat} {b : Byte} {rest : Memory} :
    Memory.wfFrom lo ((k, b) :: rest) = true ↔
      lo ≤ k ∧ k < Config.memSize ∧ b ≠ Config.unlistedByte ∧ Memory.wfFrom (k + 1) rest = true := by
  simp [Memory.wfFrom, and_assoc]

theorem Memory.wfFrom_mono {lo lo' : Nat} {m : Memory} (hle : lo ≤ lo') (h : Memory.wfFrom lo' m = true) :
    Memory.wfFrom lo m = true := by
  cases m with
  | nil => rfl
  | cons c rest =>
    obtain ⟨k, b⟩ := c
    obtain ⟨hk, h'⟩ := Memory.wfFrom_cons.mp h
    exact Memory.wfFrom_cons.mpr ⟨by omega, h'⟩

/-- Below a canonical list's first address every byte is unlisted. -/
theorem Memory.byteAt_below {lo a : Nat} {m : Memory} (h : Memory.wfFrom lo m = true) (ha : a < lo) :
    m.byteAt a = Config.unlistedByte := by
  induction m generalizing lo with
  | nil => rfl
  | cons c rest ih =>
    obtain ⟨k, b⟩ := c
    obtain ⟨hlo, _, _, hrest⟩ := Memory.wfFrom_cons.mp h
    rw [Memory.byteAt, if_neg (by omega)]
    exact ih hrest (by omega)

/-- A canonical memory holds nothing at or past MEM_SIZE (10_state.md R33). -/
theorem Memory.byteAt_past {lo a : Nat} {m : Memory} (h : Memory.wfFrom lo m = true) (ha : Config.memSize ≤ a) :
    m.byteAt a = Config.unlistedByte := by
  induction m generalizing lo with
  | nil => rfl
  | cons c rest ih =>
    obtain ⟨k, b⟩ := c
    obtain ⟨_, hk, _, hrest⟩ := Memory.wfFrom_cons.mp h
    rw [Memory.byteAt, if_neg (by omega)]
    exact ih hrest

/-- Writing one byte leaves every other byte. -/
theorem Memory.byteAt_setByte_other {m : Memory} {a a' : Nat} {v : Byte} (h : a' ≠ a) :
    (m.setByte a v).byteAt a' = m.byteAt a' := by
  induction m with
  | nil => by_cases hv : v = Config.unlistedByte <;> simp [Memory.setByte, Memory.byteAt, hv, h.symm]
  | cons c rest ih =>
    obtain ⟨k, b⟩ := c
    simp only [Memory.setByte]
    split
    · simp only [Memory.byteAt, ih]
    · split
      · rename_i hk
        subst hk
        split <;> simp [Memory.byteAt, h.symm]
      · split <;> simp [Memory.byteAt, h.symm]

/-- A byte written to a canonical memory reads back. -/
theorem Memory.byteAt_setByte_same {lo : Nat} {m : Memory} {a : Nat} {v : Byte} (h : Memory.wfFrom lo m = true) :
    (m.setByte a v).byteAt a = v := by
  induction m generalizing lo with
  | nil => by_cases hv : v = Config.unlistedByte <;> simp [Memory.setByte, Memory.byteAt, hv]
  | cons c rest ih =>
    obtain ⟨k, b⟩ := c
    obtain ⟨_, _, _, hrest⟩ := Memory.wfFrom_cons.mp h
    simp only [Memory.setByte]
    split
    · rename_i hk
      rw [Memory.byteAt, if_neg (by omega)]
      exact ih hrest
    · split
      · rename_i hk
        subst hk
        split
        · rename_i hv
          rw [hv]
          exact Memory.byteAt_below hrest (by omega)
        · simp [Memory.byteAt]
      · split
        · rename_i hlt hne hv
          rw [hv, Memory.byteAt, if_neg hne]
          exact Memory.byteAt_below hrest (by omega)
        · simp [Memory.byteAt]

theorem Memory.setByte_wfFrom {lo : Nat} {m : Memory} {a : Nat} {v : Byte} (h : Memory.wfFrom lo m = true)
    (hlo : lo ≤ a) (ha : a < Config.memSize) : Memory.wfFrom lo (m.setByte a v) = true := by
  induction m generalizing lo with
  | nil => by_cases hv : v = Config.unlistedByte <;> simp [Memory.setByte, hv, hlo, ha]
  | cons c rest ih =>
    obtain ⟨k, b⟩ := c
    have h' := h
    obtain ⟨hk, hkm, hb, hrest⟩ := Memory.wfFrom_cons.mp h'
    simp only [Memory.setByte]
    split
    · exact Memory.wfFrom_cons.mpr ⟨hk, hkm, hb, ih hrest (by omega)⟩
    · split
      · rename_i hka
        split
        · exact Memory.wfFrom_mono (by omega) hrest
        · rename_i hv
          subst hka
          exact Memory.wfFrom_cons.mpr ⟨hlo, ha, hv, hrest⟩
      · split
        · exact h
        · rename_i hv
          exact Memory.wfFrom_cons.mpr ⟨hlo, ha, hv, Memory.wfFrom_cons.mpr ⟨by omega, hkm, hb, hrest⟩⟩

/-- Writing one byte inside the array keeps the canonical form. -/
theorem Memory.setByte_wf {m : Memory} {a : Nat} {v : Byte} (h : m.wf = true) (ha : a < Config.memSize) :
    (m.setByte a v).wf = true := Memory.setByte_wfFrom h (Nat.zero_le a) ha

/-- Writing bytes inside the array keeps the canonical form. -/
theorem Memory.setBytes_wf {m : Memory} {a : Nat} {bs : List Byte} (h : m.wf = true)
    (ha : a + bs.length ≤ Config.memSize) : (m.setBytes a bs).wf = true := by
  induction bs generalizing m a with
  | nil => exact h
  | cons b bs ih =>
    simp only [List.length_cons] at ha
    exact ih (Memory.setByte_wf h (by omega)) (by omega)

/-- Bytes written from `a` on leave every address outside them. -/
theorem Memory.byteAt_setBytes_outside {m : Memory} {a a' : Nat} {bs : List Byte}
    (h : a' < a ∨ a + bs.length ≤ a') : (m.setBytes a bs).byteAt a' = m.byteAt a' := by
  induction bs generalizing m a with
  | nil => rfl
  | cons b bs ih =>
    simp only [List.length_cons] at h
    rw [Memory.setBytes, ih (by omega), Memory.byteAt_setByte_other (by omega)]

/-- Bytes written from `a` on read back, each at its address. -/
theorem Memory.byteAt_setBytes_inside {m : Memory} {a k : Nat} {bs : List Byte} (h : m.wf = true)
    (ha : a + bs.length ≤ Config.memSize) (hk : k < bs.length) : (m.setBytes a bs).byteAt (a + k) = bs[k] := by
  induction bs generalizing m a k with
  | nil => simp at hk
  | cons b bs ih =>
    simp only [List.length_cons] at ha hk
    rw [Memory.setBytes]
    cases k with
    | zero =>
      rw [Memory.byteAt_setBytes_outside (by omega)]
      exact Memory.byteAt_setByte_same (lo := 0) h
    | succ k =>
      rw [show a + (k + 1) = a + 1 + k by omega]
      simpa using ih (Memory.setByte_wf h (by omega)) (by omega) (by omega)

/-- The reset memory is canonical. -/
theorem State.reset_mem_wf : State.reset.mem.wf = true := rfl

/-! ### The bounded reads and writes: each succeeds exactly under the bounds rule (20_memory.md R53, R56) -/

theorem inBounds_iff {a n : Nat} : inBounds a n = true ↔ a + n ≤ Config.memSize := by simp [inBounds]

/-- A read in bounds gives the byte. -/
theorem readByte_of_le {m : Memory} {a : Nat} (h : a + 1 ≤ Config.memSize) : readByte m a = .ok (m.byteAt a) := by
  simp [readByte, inBounds, h]

theorem readWord_of_le {m : Memory} {a : Nat} (h : a + 2 ≤ Config.memSize) :
    readWord m a = .ok (m.byteAt a ++ m.byteAt (a + 1)) := by
  simp [readWord, inBounds, h]

theorem readLong_of_le {m : Memory} {a : Nat} (h : a + 4 ≤ Config.memSize) :
    readLong m a = .ok (m.byteAt a ++ m.byteAt (a + 1) ++ m.byteAt (a + 2) ++ m.byteAt (a + 3)) := by
  simp [readLong, inBounds, h]

/-- A read past the end is the error, whatever memory holds. -/
theorem readByte_of_gt {m : Memory} {a : Nat} (h : Config.memSize < a + 1) :
    readByte m a = .error (.outOfBounds a 1) := by
  simp [readByte, raiseOutOfBounds, inBounds, Nat.not_le.mpr h]

theorem readWord_of_gt {m : Memory} {a : Nat} (h : Config.memSize < a + 2) :
    readWord m a = .error (.outOfBounds a 2) := by
  simp [readWord, raiseOutOfBounds, inBounds, Nat.not_le.mpr h]

theorem readLong_of_gt {m : Memory} {a : Nat} (h : Config.memSize < a + 4) :
    readLong m a = .error (.outOfBounds a 4) := by
  simp [readLong, raiseOutOfBounds, inBounds, Nat.not_le.mpr h]

/-- Everything a host byte write can do. -/
theorem writeByte_cases {m : Memory} {a v : Nat} :
    (a + 1 ≤ Config.memSize ∧ writeByte m a v = .ok (m.setByte a (BitVec.ofNat 8 v))) ∨
      (Config.memSize < a + 1 ∧ writeByte m a v = .error (.outOfBounds a 1)) := by
  rcases Nat.lt_or_ge Config.memSize (a + 1) with h | h
  · exact .inr ⟨h, by simp [writeByte, raiseOutOfBounds, inBounds, Nat.not_le.mpr h]⟩
  · exact .inl ⟨h, by simp [writeByte, inBounds, h]⟩

/-- Everything a host word write can do. -/
theorem writeWord_cases {m : Memory} {a v : Nat} :
    (a + 2 ≤ Config.memSize ∧
        writeWord m a v = .ok ((m.setByte a (BitVec.ofNat 8 (v / 256))).setByte (a + 1) (BitVec.ofNat 8 v))) ∨
      (Config.memSize < a + 2 ∧ writeWord m a v = .error (.outOfBounds a 2)) := by
  rcases Nat.lt_or_ge Config.memSize (a + 2) with h | h
  · exact .inr ⟨h, by simp [writeWord, raiseOutOfBounds, inBounds, Nat.not_le.mpr h]⟩
  · exact .inl ⟨h, by simp [writeWord, inBounds, h]⟩

/-- A byte write that succeeds keeps the canonical form. -/
theorem writeByte_wf {m m' : Memory} {a v : Nat} (hw : m.wf = true) (h : writeByte m a v = .ok m') : m'.wf = true := by
  obtain ⟨ha, e⟩ | ⟨_, e⟩ := writeByte_cases (m := m) (a := a) (v := v)
  · rw [e] at h; cases h; exact Memory.setByte_wf hw (by omega)
  · rw [e] at h; cases h

/-- A word write that succeeds keeps the canonical form. -/
theorem writeWord_wf {m m' : Memory} {a v : Nat} (hw : m.wf = true) (h : writeWord m a v = .ok m') : m'.wf = true := by
  obtain ⟨ha, e⟩ | ⟨_, e⟩ := writeWord_cases (m := m) (a := a) (v := v)
  · rw [e] at h; cases h; exact Memory.setByte_wf (Memory.setByte_wf hw (by omega)) (by omega)
  · rw [e] at h; cases h

end Sys2Proof.Machine
end

