-- ==== Sys2Proof/Laws/State.lean ====
section
/-! SUPPORT. One lemma per field per update of State, so that no proof unfolds a record update. -/

namespace Sys2Proof.Machine

section
variable (s : State) (i j : RegIdx) (v : Long) (f : Ccr) (m : Memory)

@[simp] theorem State.setDreg_a : (s.setDreg i v).a = s.a := rfl
@[simp] theorem State.setDreg_pc : (s.setDreg i v).pc = s.pc := rfl
@[simp] theorem State.setDreg_ccr : (s.setDreg i v).ccr = s.ccr := rfl
@[simp] theorem State.setDreg_mem : (s.setDreg i v).mem = s.mem := rfl
@[simp] theorem State.setDreg_areg : (s.setDreg i v).areg j = s.areg j := rfl
@[simp] theorem State.setAreg_d : (s.setAreg i v).d = s.d := rfl
@[simp] theorem State.setAreg_pc : (s.setAreg i v).pc = s.pc := rfl
@[simp] theorem State.setAreg_ccr : (s.setAreg i v).ccr = s.ccr := rfl
@[simp] theorem State.setAreg_mem : (s.setAreg i v).mem = s.mem := rfl
@[simp] theorem State.setAreg_dreg : (s.setAreg i v).dreg j = s.dreg j := rfl
@[simp] theorem State.setPc_d : (s.setPc v).d = s.d := rfl
@[simp] theorem State.setPc_a : (s.setPc v).a = s.a := rfl
@[simp] theorem State.setPc_pc : (s.setPc v).pc = v := rfl
@[simp] theorem State.setPc_ccr : (s.setPc v).ccr = s.ccr := rfl
@[simp] theorem State.setPc_mem : (s.setPc v).mem = s.mem := rfl
@[simp] theorem State.setPc_dreg : (s.setPc v).dreg j = s.dreg j := rfl
@[simp] theorem State.setPc_areg : (s.setPc v).areg j = s.areg j := rfl
@[simp] theorem State.setCcr_d : (s.setCcr f).d = s.d := rfl
@[simp] theorem State.setCcr_a : (s.setCcr f).a = s.a := rfl
@[simp] theorem State.setCcr_pc : (s.setCcr f).pc = s.pc := rfl
@[simp] theorem State.setCcr_ccr : (s.setCcr f).ccr = f := rfl
@[simp] theorem State.setCcr_mem : (s.setCcr f).mem = s.mem := rfl
@[simp] theorem State.setCcr_dreg : (s.setCcr f).dreg j = s.dreg j := rfl
@[simp] theorem State.setCcr_areg : (s.setCcr f).areg j = s.areg j := rfl
@[simp] theorem State.setMem_d : (s.setMem m).d = s.d := rfl
@[simp] theorem State.setMem_a : (s.setMem m).a = s.a := rfl
@[simp] theorem State.setMem_pc : (s.setMem m).pc = s.pc := rfl
@[simp] theorem State.setMem_ccr : (s.setMem m).ccr = s.ccr := rfl
@[simp] theorem State.setMem_mem : (s.setMem m).mem = m := rfl
@[simp] theorem State.setMem_dreg : (s.setMem m).dreg j = s.dreg j := rfl
@[simp] theorem State.setMem_areg : (s.setMem m).areg j = s.areg j := rfl

/-- A data register reads back what was written to it. -/
@[simp] theorem State.setDreg_dreg_same : (s.setDreg i v).dreg i = v := by
  simp [State.setDreg, State.dreg]

/-- An address register reads back what was written to it. -/
@[simp] theorem State.setAreg_areg_same : (s.setAreg i v).areg i = v := by
  simp [State.setAreg, State.areg]

variable {i j}

/-- A write of one data register leaves the others (10_state.md R21: no aliases). -/
theorem State.setDreg_dreg_other (h : j ≠ i) : (s.setDreg i v).dreg j = s.dreg j := by
  have h' : i.val ≠ j.val := fun e => h (Fin.ext e.symm)
  simp [State.setDreg, State.dreg, h']

/-- A write of one address register leaves the others (10_state.md R23). -/
theorem State.setAreg_areg_other (h : j ≠ i) : (s.setAreg i v).areg j = s.areg j := by
  have h' : i.val ≠ j.val := fun e => h (Fin.ext e.symm)
  simp [State.setAreg, State.areg, h']

end

end Sys2Proof.Machine
end

