-- ==== Sys2Proof/Laws/Operands.lean ====
section
/-! SUPPORT. What each operand form reads and writes, in numbers. -/

namespace Sys2Proof.Machine

@[simp] theorem lowByte_toNat (v : Long) : (lowByte v).toNat = v.toNat % 256 := by
  simp [lowByte, BitVec.extractLsb'_toNat]

@[simp] theorem lowWord_toNat (v : Long) : (lowWord v).toNat = v.toNat % 65536 := by
  simp [lowWord, BitVec.extractLsb'_toNat]

/-- The low byte of an insertion is the inserted byte. -/
@[simp] theorem lowByte_insertByte (v : Long) (b : Byte) : lowByte (insertByte v b) = b := by
  apply BitVec.eq_of_getLsbD_eq
  intro i hi
  simp only [lowByte, insertByte, BitVec.getLsbD_extractLsb', BitVec.getLsbD_or, BitVec.getLsbD_and,
    BitVec.getLsbD_setWidth]
  interval_cases i <;> simp

/-- An insertion keeps the upper 24 bits (41_data_move.md R120). -/
theorem insertByte_upper (v : Long) (b : Byte) : insertByte v b &&& 0xFFFFFF00#32 = v &&& 0xFFFFFF00#32 := by
  apply BitVec.eq_of_getLsbD_eq
  intro i hi
  simp only [insertByte, BitVec.getLsbD_or, BitVec.getLsbD_and, BitVec.getLsbD_setWidth]
  interval_cases i <;> simp

/-- An insertion in numbers. -/
theorem insertByte_toNat (v : Long) (b : Byte) : (insertByte v b).toNat = v.toNat / 256 * 256 + b.toNat := by
  have low := congrArg BitVec.toNat (lowByte_insertByte v b)
  have upper : insertByte v b >>> 8 = v >>> 8 := by
    apply BitVec.eq_of_getLsbD_eq
    intro i hi
    simp only [insertByte, BitVec.getLsbD_ushiftRight, BitVec.getLsbD_or, BitVec.getLsbD_and, BitVec.getLsbD_setWidth]
    interval_cases i <;> simp
  have upper' := congrArg BitVec.toNat upper
  rw [lowByte_toNat] at low
  simp only [BitVec.toNat_ushiftRight, Nat.shiftRight_eq_div_pow] at upper'
  omega

/-- A byte put below a value: 256 times the value, plus the byte (20_memory.md R52). -/
theorem append_byte_toNat {n : Nat} (v : BitVec n) (b : Byte) : (v ++ b).toNat = v.toNat * 256 + b.toNat := by
  rw [BitVec.toNat_append, ← Nat.shiftLeft_add_eq_or_of_lt b.isLt]
  omega

/-- `sext` is the two's-complement reading (00_scope.md R10). -/
theorem sext_eq {n : Nat} (v : BitVec n) :
    sext v = if 2 * v.toNat < 2 ^ n then (v.toNat : Int) else (v.toNat : Int) - (2 ^ n : Nat) := by
  simp [sext, BitVec.toInt_eq_toNat_cond]

/-- `trunc` is the remainder modulo 2^N (00_scope.md R10). -/
theorem trunc_toNat (n : Nat) (x : Int) : ((trunc n x).toNat : Int) = x % 2 ^ n := by
  simp only [trunc, BitVec.toNat_ofInt]
  exact Int.toNat_of_nonneg (Int.emod_nonneg _ (by positivity))

/-- `trunc` of a natural number. -/
theorem trunc_natCast (n x : Nat) : (trunc n (x : Int)).toNat = x % 2 ^ n := by
  have := trunc_toNat n x
  exact_mod_cast this

@[simp] theorem wordToLong_toNat (w : Word) : (wordToLong w).toNat = w.toNat := by
  simp [wordToLong]
  omega

/-- PC arithmetic wraps modulo 2^32 (10_state.md R27). -/
theorem State.pcPlus_toNat (s : State) (delta : Int) :
    ((s.pcPlus delta).toNat : Int) = ((s.pc.toNat : Int) + delta) % 2 ^ 32 := trunc_toNat 32 _

/-- Adding nothing to PC leaves it. -/
theorem State.pcPlus_zero (s : State) : s.pcPlus 0 = s.pc := by
  rw [← BitVec.toNat_inj]
  have := s.pcPlus_toNat 0
  have := s.pc.isLt
  omega

/-- RTS's advance of A7, modulo 2^32 (44_control.md R160). -/
theorem advanceStack_areg (s : State) : ((advanceStack s).areg 7).toNat = ((s.areg 7).toNat + 4) % 2 ^ 32 := by
  simp only [advanceStack, stackPointer, State.setAreg_areg_same]
  exact_mod_cast trunc_natCast 32 ((s.areg 7).toNat + 4)

/-- RTS's advance of A7 leaves the other address registers. -/
theorem advanceStack_areg_other {s : State} {i : RegIdx} (h : i ≠ 7) : (advanceStack s).areg i = s.areg i :=
  State.setAreg_areg_other s _ h

/-- Everything a stack read can do (44_control.md R160). -/
theorem readStack_cases (s : State) :
    ((s.areg 7).toNat + 4 ≤ Config.memSize ∧ ∃ v, readStack s = .ok v ∧ readLong s.mem (s.areg 7).toNat = .ok v) ∨
      (Config.memSize < (s.areg 7).toNat + 4 ∧ readStack s = .error (.outOfBounds (s.areg 7).toNat 4)) := by
  rcases Nat.lt_or_ge Config.memSize ((s.areg 7).toNat + 4) with h | h
  · exact .inr ⟨h, readLong_of_gt h⟩
  · exact .inl ⟨h, _, readLong_of_le h, readLong_of_le h⟩

/-- Everything an extension-word read can do (44_control.md R162). -/
theorem readExtension_cases (s : State) :
    (s.pc.toNat + 4 ≤ Config.memSize ∧
        readExtension s = .ok (s.mem.byteAt (s.pc.toNat + 2) ++ s.mem.byteAt (s.pc.toNat + 3))) ∨
      (Config.memSize < s.pc.toNat + 4 ∧ readExtension s = .error (.outOfBounds (s.pc.toNat + 2) 2)) := by
  rcases Nat.lt_or_ge Config.memSize (s.pc.toNat + 4) with h | h
  · exact .inr ⟨h, readWord_of_gt (by omega)⟩
  · exact .inl ⟨h, readWord_of_le (by omega)⟩

end Sys2Proof.Machine
end

