-- ==== Sys2Proof/Laws/Exec.lean ====
section
/-! SUPPORT. What each handler can do, said once: later proofs cite these and unfold no handler. -/

namespace Sys2Proof.Machine

/-- A handler's read and writes: next with the writes exactly when the read succeeds. -/
theorem afterRead_eq_next {α : Type} {r : Except Fault α} {k : α → State} {t : State} :
    afterRead r k = .next t ↔ ∃ x, r = .ok x ∧ t = k x := by
  cases r with
  | ok x => simp [afterRead, eq_comm]
  | error f => simp [afterRead]

/-- A handler's read and writes: the fault exactly when the read fails. -/
theorem afterRead_eq_fault {α : Type} {r : Except Fault α} {k : α → State} {f : Fault} :
    afterRead r k = .fault f ↔ r = .error f := by
  cases r with
  | ok x => simp [afterRead]
  | error g => simp [afterRead]

theorem afterRead_ne_refused {α : Type} {r : Except Fault α} {k : α → State} {p : Refusal} :
    afterRead r k ≠ .refused p := by
  cases r <;> simp [afterRead]

theorem exec_moveB (src dst : RegIdx) (s : State) :
    exec (.moveB src dst) s = .next ((setDregByte s dst (dregByte s src)).setCcr (moveByteFlags (dregByte s src))) := rfl

theorem exec_addL (src dst : RegIdx) (s : State) :
    exec (.addL src dst) s =
      .next ((s.setDreg dst (trunc 32 ((s.dreg dst).toNat + (s.dreg src).toNat))).setCcr
        (addLongFlags ((s.dreg dst).toNat + (s.dreg src).toNat))) := rfl

theorem exec_subW (src dst : RegIdx) (s : State) :
    exec (.subW src dst) s =
      .next ((setAregWord s dst (aregSignedWord s dst - dregSignedWord s src)).setCcr
        (subWordFlags (aregSignedWord s dst - dregSignedWord s src))) := rfl

theorem exec_cmpB (s : State) :
    exec .cmpB s = .next (s.setCcr (compareByteFlags (dregByte s 5) (dregByte s 0))) := rfl

theorem exec_jmp (s : State) : exec .jmp s = .next (s.setPc (s.areg 2)) := rfl

theorem exec_bleB (disp8 : Byte) (s : State) :
    exec (.bleB disp8) s =
      .next (s.setPc (if lessOrEqual s.ccr then branchTarget8 s disp8 else s.pcPlus 0)) := rfl

theorem exec_rts (s : State) :
    exec .rts s = afterRead (readStack s) fun v => ((advanceStack s).setPc v).setCcr (clearOverflow s.ccr) := rfl

theorem exec_braW (s : State) :
    exec .braW s = afterRead (readExtension s) fun ext => s.setPc (branchTarget16 s ext) := rfl

/-- No instruction is refused. -/
theorem exec_ne_refused (i : Instr) (s : State) (p : Refusal) : exec i s ≠ .refused p := by
  cases i with
  | rts => exact afterRead_ne_refused
  | braW => exact afterRead_ne_refused
  | moveB src dst => simp [exec_moveB]
  | addL src dst => simp [exec_addL]
  | subW src dst => simp [exec_subW]
  | cmpB => simp [exec_cmpB]
  | jmp => simp [exec_jmp]
  | bleB disp8 => simp [exec_bleB]

/-- Only RTS and BRA.W can end in a fault, each by its own read (60_exceptions.md R201). -/
theorem exec_eq_fault {i : Instr} {s : State} {f : Fault} (h : exec i s = .fault f) :
    (i = .rts ∧ Config.memSize < (s.areg 7).toNat + 4 ∧ f = .outOfBounds (s.areg 7).toNat 4) ∨
      (i = .braW ∧ Config.memSize < s.pc.toNat + 4 ∧ f = .outOfBounds (s.pc.toNat + 2) 2) := by
  cases i with
  | rts =>
    rw [exec_rts, afterRead_eq_fault] at h
    obtain ⟨_, v, e, _⟩ | ⟨hb, e⟩ := readStack_cases s
    · rw [e] at h; cases h
    · rw [e] at h; cases h; exact .inl ⟨rfl, hb, rfl⟩
  | braW =>
    rw [exec_braW, afterRead_eq_fault] at h
    obtain ⟨_, e⟩ | ⟨hb, e⟩ := readExtension_cases s
    · rw [e] at h; cases h
    · rw [e] at h; cases h; exact .inr ⟨rfl, hb, rfl⟩
  | moveB src dst => simp [exec_moveB] at h
  | addL src dst => simp [exec_addL] at h
  | subW src dst => simp [exec_subW] at h
  | cmpB => simp [exec_cmpB] at h
  | jmp => simp [exec_jmp] at h
  | bleB disp8 => simp [exec_bleB] at h

/-- Everything an instruction can do when it answers a next state. -/
theorem exec_next_cases {i : Instr} {s t : State} (h : exec i s = .next t) :
    (i = .rts ∧ ∃ v, readStack s = .ok v ∧ t = ((advanceStack s).setPc v).setCcr (clearOverflow s.ccr)) ∨
    (∃ src dst, i = .moveB src dst ∧
      t = (setDregByte s dst (dregByte s src)).setCcr (moveByteFlags (dregByte s src))) ∨
    (∃ src dst, i = .addL src dst ∧
      t = (s.setDreg dst (trunc 32 ((s.dreg dst).toNat + (s.dreg src).toNat))).setCcr
        (addLongFlags ((s.dreg dst).toNat + (s.dreg src).toNat))) ∨
    (∃ src dst, i = .subW src dst ∧
      t = (setAregWord s dst (aregSignedWord s dst - dregSignedWord s src)).setCcr
        (subWordFlags (aregSignedWord s dst - dregSignedWord s src))) ∨
    (i = .cmpB ∧ t = s.setCcr (compareByteFlags (dregByte s 5) (dregByte s 0))) ∨
    (i = .jmp ∧ t = s.setPc (s.areg 2)) ∨
    (i = .braW ∧ ∃ ext, readExtension s = .ok ext ∧ t = s.setPc (branchTarget16 s ext)) ∨
    (∃ disp8, i = .bleB disp8 ∧
      t = s.setPc (if lessOrEqual s.ccr then branchTarget8 s disp8 else s.pcPlus 0)) := by
  cases i with
  | rts => exact .inl ⟨rfl, afterRead_eq_next.mp h⟩
  | moveB src dst => cases h; exact .inr (.inl ⟨src, dst, rfl, rfl⟩)
  | addL src dst => cases h; exact .inr (.inr (.inl ⟨src, dst, rfl, rfl⟩))
  | subW src dst => cases h; exact .inr (.inr (.inr (.inl ⟨src, dst, rfl, rfl⟩)))
  | cmpB => cases h; exact .inr (.inr (.inr (.inr (.inl ⟨rfl, rfl⟩))))
  | jmp => cases h; exact .inr (.inr (.inr (.inr (.inr (.inl ⟨rfl, rfl⟩)))))
  | braW => exact .inr (.inr (.inr (.inr (.inr (.inr (.inl ⟨rfl, afterRead_eq_next.mp h⟩))))))
  | bleB disp8 => cases h; exact .inr (.inr (.inr (.inr (.inr (.inr (.inr ⟨disp8, rfl, rfl⟩))))))

/-- No handler writes memory (20_memory.md R57). -/
theorem exec_next_mem {i : Instr} {s t : State} (h : exec i s = .next t) : t.mem = s.mem := by
  obtain ⟨_, _, _, rfl⟩ | ⟨_, _, _, rfl⟩ | ⟨_, _, _, rfl⟩ | ⟨_, _, _, rfl⟩ | ⟨_, rfl⟩ | ⟨_, rfl⟩ | ⟨_, _, _, rfl⟩ |
    ⟨_, _, rfl⟩ := exec_next_cases h <;> rfl

end Sys2Proof.Machine
end

