-- ==== Sys2Proof/Laws/PerInstr.lean ====
section
/-! SUPPORT. Per-instruction family OpcodeFields: the opcode word of every instruction, well formed or not, carries its
operands in the fields the handler reads them from (30_encoding.md R82, R83). -/

namespace Sys2Proof.Laws.OpcodeFields

/-- Reading the fields of `encodeOp i` gives back the operands of `i`. -/
def Statement (i : Instr) : Prop :=
  match i with
  | .rts => encodeOp i = 0x4E75
  | .moveB src dst => srcField (encodeOp i) = src ∧ dstField (encodeOp i) = dst
  | .addL src dst => srcField (encodeOp i) = src ∧ dstField (encodeOp i) = dst
  | .subW src dst => srcField (encodeOp i) = src ∧ dstField (encodeOp i) = dst
  | .cmpB => encodeOp i = 0xB045
  | .jmp => encodeOp i = 0x4EBA
  | .braW => encodeOp i = 0x6000
  | .bleB disp8 => disp8Field (encodeOp i) = disp8

theorem rts : Statement .rts := rfl

theorem moveB (src dst : RegIdx) : Statement (.moveB src dst) := by
  revert src dst
  unfold Statement
  decide

theorem addL (src dst : RegIdx) : Statement (.addL src dst) := by
  revert src dst
  unfold Statement
  decide

theorem subW (src dst : RegIdx) : Statement (.subW src dst) := by
  revert src dst
  unfold Statement
  decide

theorem cmpB : Statement .cmpB := rfl

theorem jmp : Statement .jmp := rfl

theorem braW : Statement .braW := rfl

theorem bleB (disp8 : Byte) : Statement (.bleB disp8) := by
  show BitVec.extractLsb' 0 8 (0b00010001#8 ++ disp8) = disp8
  rw [BitVec.extractLsb'_append_eq_of_add_le (by decide)]
  exact BitVec.extractLsb'_eq_self

end Sys2Proof.Laws.OpcodeFields
end

