-- ==== Sys2Proof/Laws/Step.lean ====
section
/-! SUPPORT. What a step can do, said once. -/

namespace Sys2Proof.Machine

theorem fetchOpcode_of_le {s : State} (h : s.pc.toNat + 2 ≤ Config.memSize) :
    fetchOpcode s = .ok (s.mem.byteAt s.pc.toNat ++ s.mem.byteAt (s.pc.toNat + 1)) := readWord_of_le h

theorem fetchOpcode_of_gt {s : State} (h : Config.memSize < s.pc.toNat + 2) :
    fetchOpcode s = .error (.outOfBounds s.pc.toNat 2) := readWord_of_gt h

theorem runStep_of_error {s : State} {f : Fault} (h : fetchOpcode s = .error f) : runStep s = (.fault f, none) := by
  simp [runStep, h]

theorem runStep_of_unknown {s : State} {op : Word} (h : fetchOpcode s = .ok op) (hd : decodeOp op = none) :
    runStep s = (.next s, some { value := op, address := s.pc }) := by
  simp [runStep, h, hd]

theorem runStep_of_known {s : State} {op : Word} {i : Instr} (h : fetchOpcode s = .ok op) (hd : decodeOp op = some i) :
    runStep s = (exec i s, none) := by
  simp [runStep, h, hd]

/-- Everything a step can do (40_fetch_decode.md R101). -/
theorem runStep_cases (s : State) :
    (Config.memSize < s.pc.toNat + 2 ∧ runStep s = (.fault (.outOfBounds s.pc.toNat 2), none)) ∨
    (∃ op, fetchOpcode s = .ok op ∧ decodeOp op = none ∧
      runStep s = (.next s, some { value := op, address := s.pc })) ∨
    (∃ op i, fetchOpcode s = .ok op ∧ decodeOp op = some i ∧ runStep s = (exec i s, none)) := by
  rcases Nat.lt_or_ge Config.memSize (s.pc.toNat + 2) with h | h
  · exact .inl ⟨h, runStep_of_error (fetchOpcode_of_gt h)⟩
  · have hf := fetchOpcode_of_le h
    cases hd : decodeOp (s.mem.byteAt s.pc.toNat ++ s.mem.byteAt (s.pc.toNat + 1)) with
    | none => exact .inr (.inl ⟨_, hf, hd, runStep_of_unknown hf hd⟩)
    | some i => exact .inr (.inr ⟨_, i, hf, hd, runStep_of_known hf hd⟩)

/-- A step that answers a next state changed nothing, or ran one decoded instruction. -/
theorem step_next_cases {s t : State} (h : step s = .next t) :
    t = s ∨ ∃ op i, fetchOpcode s = .ok op ∧ decodeOp op = some i ∧ exec i s = .next t := by
  unfold step at h
  obtain ⟨_, e⟩ | ⟨_, _, _, e⟩ | ⟨op, i, hf, hd, e⟩ := runStep_cases s
  · rw [e] at h; cases h
  · rw [e] at h; cases h; exact .inl rfl
  · rw [e] at h; exact .inr ⟨op, i, hf, hd, h⟩

@[simp] theorem replyOfStep_ok {t : State} : replyOfStep (.next t, none) = .ok := rfl
@[simp] theorem replyOfStep_unknown {t : State} {report : UnknownOpcode} :
    replyOfStep (.next t, some report) = .unknownOpcode report := rfl
@[simp] theorem replyOfStep_fault {a n : Nat} {report : Option UnknownOpcode} :
    replyOfStep (.fault (.outOfBounds a n), report) = .outOfBounds a n := rfl
@[simp] theorem replyOfRead_ok {n : Nat} {v : BitVec n} : replyOfRead (.ok v) = .value v.toNat := rfl
@[simp] theorem replyOfRead_error {n a w : Nat} :
    replyOfRead (.error (.outOfBounds a w) : Except Fault (BitVec n)) = .outOfBounds a w := rfl

/-- A run of one more step goes on from the next state. -/
theorem run_succ_of_next {s t : State} (n : Nat) (h : step s = .next t) :
    Sys2Proof.core.run (n + 1) s = Sys2Proof.core.run n t := by
  have h' : Sys2Proof.core.step s = .next t := h
  simp only [Host.Core.run, h']

/-- The instructions the literal decoder can give, by their words (30_encoding.md R86). -/
theorem decodeOp_cases {op : Word} {i : Instr} (h : decodeOp op = some i) :
    (op = 0x4E75 ∧ i = .rts) ∨ (op = 0x1081 ∧ i = .moveB 0 1) ∨ (op = 0xD442 ∧ i = .addL 2 2) ∨
    (op = 0x91E7 ∧ i = .subW 0 7) ∨ (op = 0xB045 ∧ i = .cmpB) ∨ (op = 0x4EBA ∧ i = .jmp) ∨
    (op = 0x6000 ∧ i = .braW) ∨ (op = 0x1111 ∧ i = .bleB 0x11) := by
  simp only [decodeOp, Option.map_eq_some_iff] at h
  obtain ⟨row, hrow, hi⟩ := h
  have hlit : row.literal = op := by simpa using List.find?_some hrow
  have hmem := List.mem_of_find?_eq_some hrow
  subst hlit
  simp only [opcodeMap, List.mem_cons, List.not_mem_nil, or_false] at hmem
  rcases hmem with rfl | rfl | rfl | rfl | rfl | rfl | rfl | rfl <;> subst hi <;> decide

/-- Everything the loader can do (20_memory.md R58). -/
theorem loadImage_cases (bytes : List Byte) (offset : Nat) (s : State) :
    (offset + bytes.length ≤ Config.memSize ∧
        loadImage bytes offset s = (s.setMem (s.mem.setBytes offset bytes), .ok)) ∨
      (Config.memSize < offset + bytes.length ∧ loadImage bytes offset s = (s, .imageTooLarge)) := by
  rcases Nat.lt_or_ge Config.memSize (offset + bytes.length) with h | h
  · exact .inr ⟨h, by simp [loadImage, inBounds, Nat.not_le.mpr h]⟩
  · exact .inl ⟨h, by simp [loadImage, inBounds, h]⟩

end Sys2Proof.Machine
end

