-- ==== Sys2Proof/Tests/Slice0.lean ====
section
/-! SUPPORT. Small tests: the WellFormed smoke, one decoded word per instruction, vectors of 95_test_vectors.md (named by
their ids there), and for every statement with hypotheses a witness of each clause at a boundary value. -/

namespace Sys2Proof.Tests

open Sys2Proof.Machine

/-! ### WellFormed: each check refuses an ill-formed term -/

theorem test_moveB_wrong_source_refused : (Instr.moveB 1 1).wellFormed = false := by decide
theorem test_moveB_wrong_destination_refused : (Instr.moveB 0 0).wellFormed = false := by decide
theorem test_addL_wrong_source_refused : (Instr.addL 3 2).wellFormed = false := by decide
theorem test_addL_wrong_destination_refused : (Instr.addL 2 3).wellFormed = false := by decide
theorem test_subW_wrong_source_refused : (Instr.subW 1 7).wellFormed = false := by decide
theorem test_subW_wrong_destination_refused : (Instr.subW 0 6).wellFormed = false := by decide
theorem test_bleB_wrong_displacement_refused : (Instr.bleB 0xFF).wellFormed = false := by decide

/-! ### Decoding: each row's word, bit by bit (30_encoding.md R86) -/

theorem test_decode_rts : decode [0b01001110, 0b01110101] = .ok .rts := by decide
theorem test_decode_moveB : decode [0b00010000, 0b10000001] = .ok (.moveB 0 1) := by decide
theorem test_decode_addL : decode [0b11010100, 0b01000010] = .ok (.addL 2 2) := by decide
theorem test_decode_subW : decode [0b10010001, 0b11100111] = .ok (.subW 0 7) := by decide
theorem test_decode_cmpB : decode [0b10110000, 0b01000101] = .ok .cmpB := by decide
theorem test_decode_jmp : decode [0b01001110, 0b10111010] = .ok .jmp := by decide
theorem test_decode_braW : decode [0b01100000, 0b00000000, 0x00, 0x05] = .ok .braW := by decide
theorem test_decode_bleB : decode [0b00010001, 0b00010001] = .ok (.bleB 0x11) := by decide

/-- One bit from MOVE.B's literal (TF5). -/
theorem test_decode_neighbour_unknown : decode [0x10, 0x80] = .error (.unknownOpcode 0x1080) := by decide
theorem test_decode_truncated : decode [0x4E] = .error .truncated := by decide
/-- The extension word is the second word, at bits 31..16 of the table's number; the decoder ignores it. -/
theorem test_decodeTableWord_bra : decodeTableWord 32 0x00056000 = some .braW := by decide
theorem test_encode_bra : encodeBytes .braW (-2) = [0x60, 0x00, 0xFF, 0xFE] := by decide
theorem test_spelling_bra : spelling .braW (-2) = some "BRA.W -2" := by decide
theorem test_spelling_none : spelling (.moveB 1 0) 0 = none := by decide

/-! ### Small states -/

/-- The reset state with PC at `pc` and these bytes there. -/
def codeAt (pc : Nat) (bytes : List Byte) : State :=
  (State.reset.setPc (BitVec.ofNat 32 pc)).setMem (Memory.setBytes [] pc bytes)

/-- A state with all flags as given, in the order Z, N, C, V. -/
def withFlags (s : State) (z n c v : Bool) : State := s.setCcr { n := n, z := z, v := v, c := c }

/-- What a step leaves, seen by a reader of the next state. -/
def after {α : Type} (s : State) (see : State → α) : Option α := (nextOf (step s)).map see

/-- The four flags in the order Z, N, C, V. -/
def zncv (s : State) : List Bool := [s.ccr.z, s.ccr.n, s.ccr.c, s.ccr.v]

/-! ### One step (95_test_vectors.md section 2) -/

/-- TM2: a zero byte; C and V cleared though set; PC stays. -/
theorem test_moveB_zero_byte :
    after (withFlags ((codeAt 0 [0x10, 0x81]).setDreg 1 0xFFFFFFFF) false false true true)
      (fun t => (t.dreg 1, zncv t, t.pc)) = some (0xFFFFFF00, [true, false, false, false], 0) := by decide
/-- TM4: the source's upper bits are not read. -/
theorem test_moveB_negative_byte :
    after (((codeAt 0 [0x10, 0x81]).setDreg 0 0xFFFFFF80).setDreg 1 0x11111111)
      (fun t => (t.dreg 1, zncv t)) = some (0x11111180, [false, true, false, false]) := by decide
/-- TA4: carry and zero. -/
theorem test_addL_carry_and_zero :
    after ((codeAt 0 [0xD4, 0x42]).setDreg 2 0x80000000) (fun t => (t.dreg 2, zncv t, t.pc)) =
      some (0, [true, false, true, false], 0) := by decide
/-- TA5: signed overflow leaves V clear. -/
theorem test_addL_signed_overflow :
    after ((codeAt 0 [0xD4, 0x42]).setDreg 2 0x40000000) (fun t => (t.dreg 2, zncv t)) =
      some (0x80000000, [false, true, false, false]) := by decide
/-- TS1: upper half cleared, N set, C and V cleared. -/
theorem test_subW_negative :
    after (withFlags (((codeAt 0 [0x91, 0xE7]).setAreg 7 0x00010003).setDreg 0 5) false false true true)
      (fun t => (t.areg 7, zncv t, t.pc)) = some (0x0000FFFE, [false, true, false, false], 0) := by decide
/-- TS4: N follows the exact difference, not the stored bit 15. -/
theorem test_subW_positive_with_bit_15 :
    after (((codeAt 0 [0x91, 0xE7]).setAreg 7 0x00007FFF).setDreg 0 0x0000FFFF) (fun t => (t.areg 7, zncv t)) =
      some (0x00008000, [false, false, false, false]) := by decide
/-- TC5: unsigned, greater. -/
theorem test_cmpB_greater_unsigned :
    after (((codeAt 0 [0xB0, 0x45]).setDreg 0 0x01).setDreg 5 0xFF) (fun t => (t.dreg 5, zncv t)) =
      some (0xFF, [false, false, true, false]) := by decide
/-- TC6: unsigned, less. -/
theorem test_cmpB_less_unsigned :
    after (((codeAt 0 [0xB0, 0x45]).setDreg 0 0x80).setDreg 5 0x7F) zncv =
      some [false, true, true, false] := by decide
/-- TR2: the last four bytes of memory. -/
theorem test_rts_end_of_memory :
    after ((State.reset.setMem (Memory.setBytes (Memory.setBytes [] 0 [0x4E, 0x75]) 0x9FFFC [0xDE, 0xAD, 0xBE, 0xEF])).setAreg
        7 0x0009FFFC)
      (fun t => (t.pc, t.areg 7)) = some (0xDEADBEEF, 0x000A0000) := by decide
/-- TR3: one byte short. -/
theorem test_rts_past_end :
    faultOf (step ((codeAt 0 [0x4E, 0x75]).setAreg 7 0x0009FFFD)) = some (.outOfBounds 0x9FFFD 4) := by decide
/-- TJ2: an odd target. -/
theorem test_jmp_odd_target :
    after ((codeAt 0x40 [0x4E, 0xBA]).setAreg 2 0x00001001) (fun t => (t.pc, t.areg 2)) =
      some (0x00001001, 0x00001001) := by decide
/-- TB4: the target wraps. -/
theorem test_braW_wraps : after (codeAt 0x100 [0x60, 0x00, 0x80, 0x00]) State.pc = some 0xFFFF8102 := by decide
/-- TB8: the opcode word fits, its extension word does not. -/
theorem test_braW_extension_past_end :
    faultOf (step (codeAt 0x9FFFD [0x60, 0x00])) = some (.outOfBounds 0x9FFFF 2) := by decide
/-- TL3: V alone takes the branch. -/
theorem test_bleB_taken :
    after (withFlags (codeAt 0x100 [0x11, 0x11]) false false false true) State.pc = some 0x111 := by decide
/-- TL5: N and V together do not. -/
theorem test_bleB_not_taken :
    after (withFlags (codeAt 0x100 [0x11, 0x11]) false true false true) State.pc = some 0x100 := by decide
/-- TF4: an unknown opcode changes nothing and is reported with its word and address. -/
theorem test_unknown_opcode :
    nextOf (runStep (codeAt 0x20 [0x4E, 0x71])).1 = some (codeAt 0x20 [0x4E, 0x71]) ∧
      (runStep (codeAt 0x20 [0x4E, 0x71])).2 = some { value := 0x4E71, address := 0x20 } := by decide
/-- TF3: no address wraps. -/
theorem test_fetch_does_not_wrap :
    faultOf (step (State.reset.setPc 0xFFFFFFFF)) = some (.outOfBounds 0xFFFFFFFF 2) := by decide
theorem test_placed_word_runs :
    (nextOf (step (State.reset.withFetchWord 32 0x00056000))).map State.pc = some 7 := by decide

/-! ### The host's operations (95_test_vectors.md T-HOST) -/

/-- TF4, as the host is answered: the report, and the state as it was. -/
theorem test_step_answers_unknown_opcode :
    act .step (codeAt 0x20 [0x4E, 0x71]) =
      (codeAt 0x20 [0x4E, 0x71], .unknownOpcode { value := 0x4E71, address := 0x20 }) := by decide
/-- R51, R52 at the end of memory: the last byte is read, a word there is not. -/
theorem test_host_read_at_end :
    (act (.readByte 0x9FFFF) (codeAt 0x9FFFF [0x55])).2 = .value 0x55 ∧
      (act (.readWord 0x9FFFF) (codeAt 0x9FFFF [0x55])).2 = .outOfBounds 0x9FFFF 2 := by decide
/-- TH4, TH5: an empty image at the end, and past it. -/
theorem test_load_empty_image :
    act (.loadImage [] 0xA0000) State.reset = (State.reset, .ok) ∧
      act (.loadImage [] 0xA0001) State.reset = (State.reset, .imageTooLarge) := by decide
/-- TH6: a word write at the last byte writes neither byte. -/
theorem test_write_word_past_end :
    act (.writeWord 0x9FFFF 0x1234) (codeAt 0x9FFFF [0x55]) = (codeAt 0x9FFFF [0x55], .outOfBounds 0x9FFFF 2) := by
  decide
/-- TH7: high byte first. -/
theorem test_write_word_big_endian :
    (act (.readByte 0x100) (act (.writeWord 0x100 0x1234) State.reset).1).2 = .value 0x12 ∧
      (act (.readByte 0x101) (act (.writeWord 0x100 0x1234) State.reset).1).2 = .value 0x34 := by decide
/-- TH8: the reserved bits read 0. -/
theorem test_set_ccr_all_ones : (act .getCcr (act (.setCcr 0xFFFF) State.reset).1).2 = .value 0x000F := by decide
/-- Writing 0x00 removes the entry: equal memories are equal lists. -/
theorem test_zero_byte_is_unlisted : Memory.setByte (Memory.setByte [] 5 7) 5 0 = [] := by decide

/-! ### Witnesses: each statement's hypotheses are met together, clause by clause -/

theorem witness_OtherWordsAreUnknownOpcodes :
    0x4E71#16 ∉ [0x4E75#16, 0x1081#16, 0xD442#16, 0x91E7#16, 0xB045#16, 0x4EBA#16, 0x6000#16, 0x1111#16] ∧
      readWord (codeAt 0 [0x4E, 0x71]).mem (codeAt 0 [0x4E, 0x71]).pc.toNat = .ok 0x4E71 := by decide
theorem witness_DecodeAndEncodeAgree : (Instr.bleB 0x11).wellFormed = true ∧ (Instr.addL 2 2).wellFormed = true := by
  decide
theorem witness_StepFetchesDecodesExecutes_fault :
    readWord (codeAt 0x9FFFF []).mem (codeAt 0x9FFFF []).pc.toNat = .error (.outOfBounds 0x9FFFF 2) := by decide
theorem witness_StepFetchesDecodesExecutes_unknown :
    readWord (codeAt 0x9FFFE []).mem (codeAt 0x9FFFE []).pc.toNat = .ok 0 ∧ decodeOp 0 = none := by decide
theorem witness_StepFetchesDecodesExecutes_known :
    readWord (codeAt 0x9FFFE [0x10, 0x81]).mem (codeAt 0x9FFFE [0x10, 0x81]).pc.toNat = .ok 0x1081 ∧
      decodeOp 0x1081 = some (.moveB 0 1) := by decide
theorem witness_StepFetchesDecodesExecutes_bytes :
    (codeAt 0x9FFFE [0x4E, 0x75]).pc.toNat + 2 ≤ Config.memSize ∧
      decode [(codeAt 0x9FFFE [0x4E, 0x75]).mem.byteAt 0x9FFFE, (codeAt 0x9FFFE [0x4E, 0x75]).mem.byteAt 0x9FFFF] =
        .ok .rts := by decide
theorem witness_FetchReadsWordAtPc :
    (codeAt 0x9FFFE []).pc.toNat + 2 ≤ Config.memSize ∧ Config.memSize < (codeAt 0x9FFFF []).pc.toNat + 2 := by decide
theorem witness_FaultNamesItsAccess_return :
    readWord ((codeAt 0 [0x4E, 0x75]).setAreg 7 0x9FFFD).mem 0 = .ok 0x4E75 ∧
      faultOf (step ((codeAt 0 [0x4E, 0x75]).setAreg 7 0x9FFFD)) = some (.outOfBounds 0x9FFFD 4) := by decide
theorem witness_FaultNamesItsAccess_branch :
    readWord (codeAt 0x9FFFD [0x60, 0x00]).mem 0x9FFFD = .ok 0x6000 ∧
      faultOf (step (codeAt 0x9FFFD [0x60, 0x00])) = some (.outOfBounds 0x9FFFF 2) := by decide
theorem witness_FaultNamesItsAccess_fetch :
    faultOf (step (codeAt 0x9FFFF [])) = some (.outOfBounds 0x9FFFF 2) ∧
      Config.memSize < (codeAt 0x9FFFF []).pc.toNat + 2 := by decide
theorem witness_OnlyFetchReturnAndBranchFault :
    faultOf (step (codeAt 0x9FFFD [0x60, 0x00])) ≠ none ∧ Instr.jmp ≠ .rts ∧ Instr.jmp ≠ .braW := by decide
theorem witness_FaultOrUnknownStepRepeats :
    faultOf (step (codeAt 0x9FFFF [])) ≠ none ∧ (runStep State.reset).2 ≠ none := by decide
theorem witness_UnknownOpcodeRunsForEver :
    readWord State.reset.mem State.reset.pc.toNat = .ok 0 ∧ decodeOp 0 = none := by decide
theorem witness_MoveByteReplacesLowByte : readWord (codeAt 3 [0x10, 0x81]).mem (codeAt 3 [0x10, 0x81]).pc.toNat = .ok 0x1081 := by
  decide
theorem witness_AddLongAddsModulo : readWord (codeAt 3 [0xD4, 0x42]).mem (codeAt 3 [0xD4, 0x42]).pc.toNat = .ok 0xD442 := by
  decide
theorem witness_SubtractWordFromAddressRegister :
    readWord (codeAt 3 [0x91, 0xE7]).mem (codeAt 3 [0x91, 0xE7]).pc.toNat = .ok 0x91E7 := by decide
theorem witness_CompareByteSetsFlagsOnly :
    readWord (codeAt 3 [0xB0, 0x45]).mem (codeAt 3 [0xB0, 0x45]).pc.toNat = .ok 0xB045 := by decide
theorem witness_CompareByteSetsFlagsOnly_less :
    ((State.reset.setDreg 0 0xFF).dreg 5).toNat % 256 < ((State.reset.setDreg 0 0xFF).dreg 0).toNat % 256 := by decide
theorem witness_CompareByteSetsFlagsOnly_greater :
    ((State.reset.setDreg 5 0xFF).dreg 0).toNat % 256 < ((State.reset.setDreg 5 0xFF).dreg 5).toNat % 256 := by decide
theorem witness_CompareByteSetsFlagsOnly_equal :
    ((State.reset.setDreg 5 0x100).dreg 5).toNat % 256 = ((State.reset.setDreg 5 0x100).dreg 0).toNat % 256 := by decide
theorem witness_ReturnPopsProgramCounter :
    ((State.reset.setAreg 7 0x9FFFC).areg 7).toNat + 4 ≤ Config.memSize ∧
      Config.memSize < ((State.reset.setAreg 7 0x9FFFD).areg 7).toNat + 4 := by decide
theorem witness_BranchAlwaysAddsExtensionWord :
    (codeAt 0x9FFFC []).pc.toNat + 4 ≤ Config.memSize ∧ Config.memSize < (codeAt 0x9FFFD []).pc.toNat + 4 := by decide
theorem witness_AssembledBranchReachesDisplacement_lowest :
    (codeAt 0x9FFFC (encodeBytes .braW (-32768))).pc.toNat + 4 ≤ Config.memSize ∧
      HoldsBytes (codeAt 0x9FFFC (encodeBytes .braW (-32768))).mem 0x9FFFC (encodeBytes .braW (-32768)) := by
  unfold HoldsBytes
  decide
theorem witness_AssembledBranchReachesDisplacement_highest :
    HoldsBytes (codeAt 0 (encodeBytes .braW 32767)).mem 0 (encodeBytes .braW 32767) := by
  unfold HoldsBytes
  decide
theorem witness_BranchIfLessOrEqual_taken :
    (withFlags State.reset false true false false).ccr.z = true ∨
      (withFlags State.reset false true false false).ccr.n ≠ (withFlags State.reset false true false false).ccr.v := by
  decide
theorem witness_BranchIfLessOrEqual_not_taken :
    ¬((withFlags State.reset false true true true).ccr.z = true ∨
      (withFlags State.reset false true true true).ccr.n ≠ (withFlags State.reset false true true true).ccr.v) := by
  decide
theorem witness_RepeatedAddDoublesEachStep : readWord (codeAt 0 [0xD4, 0x42]).mem (codeAt 0 [0xD4, 0x42]).pc.toNat = .ok 0xD442 := by
  decide
theorem witness_RepeatedSubtractGoesOn :
    readWord (codeAt 0 [0x91, 0xE7]).mem (codeAt 0 [0x91, 0xE7]).pc.toNat = .ok 0x91E7 := by decide
theorem witness_StationaryStepsSettle_move :
    readWord (codeAt 0 [0x10, 0x81]).mem (codeAt 0 [0x10, 0x81]).pc.toNat = .ok 0x1081 := by decide
theorem witness_StationaryStepsSettle_compare :
    readWord (codeAt 0 [0xB0, 0x45]).mem (codeAt 0 [0xB0, 0x45]).pc.toNat = .ok 0xB045 := by decide
theorem witness_StationaryStepsSettle_branch_not_taken :
    readWord (codeAt 0 [0x11, 0x11]).mem (codeAt 0 [0x11, 0x11]).pc.toNat = .ok 0x1111 ∧
      (codeAt 0 [0x11, 0x11]).ccr.z = false ∧ (codeAt 0 [0x11, 0x11]).ccr.n = (codeAt 0 [0x11, 0x11]).ccr.v := by decide
theorem witness_OnlyTheHostWritesMemory :
    nextOf (exec .cmpB State.reset) ≠ none ∧ nextOf (step (codeAt 0 [0x4E, 0x75])) ≠ none ∧
      HostOp.step.mayWriteMemory = false := by decide
theorem witness_StepKeepsInvariant :
    (codeAt 0 [0xD4, 0x42]).Inv ∧ nextOf (step (codeAt 0 [0xD4, 0x42])) ≠ none := by
  unfold State.Inv
  decide
theorem witness_EverySessionKeepsMemoryCanonical : (codeAt 0x9FFFC [1, 0, 2, 3]).mem.wf = true := by decide
theorem witness_StepsLeaveUnwrittenRegisters : nextOf (step (codeAt 0 [0x10, 0x81])) ≠ none := by decide
theorem witness_UnreadRegistersDoNotInfluenceSteps :
    AgreeOnWorkingState (codeAt 0 [0x91, 0xE7]) (((codeAt 0 [0x91, 0xE7]).setDreg 3 9).setAreg 6 9) ∧
      ((codeAt 0 [0x91, 0xE7]).setDreg 3 9).setAreg 6 9 ≠ codeAt 0 [0x91, 0xE7] := by
  unfold AgreeOnWorkingState
  decide
theorem witness_OnlyBranchIfLessOrEqualReadsFlags :
    (∀ disp8, Instr.rts ≠ .bleB disp8) ∧
      Ccr.mk false true false true ∈
        [Ccr.mk true false false true, Ccr.mk false true false true, Ccr.mk false false true true] ∧
      nextOf (exec .rts State.reset) ≠ none ∧ nextOf (exec .rts (State.reset.setCcr (Ccr.mk true true true true))) ≠ none ∧
      (act .getCcr State.reset).2 = (act .getCcr (State.reset.setPc 1)).2 :=
  ⟨nofun, by decide, by decide, by decide, by decide⟩
theorem witness_NoStepSetsOverflow :
    nextOf (step (codeAt 0 [0x10, 0x81])) ≠ none ∧ (codeAt 0 [0x10, 0x81]).ccr.v = false ∧
      nextOf (exec (.addL 2 2) State.reset) ≠ none ∧ Instr.addL 2 2 ≠ .jmp ∧ Instr.addL 2 2 ≠ .braW ∧
      ∀ disp8, Instr.addL 2 2 ≠ .bleB disp8 := ⟨by decide, by decide, by decide, by decide, by decide, nofun⟩
theorem witness_StepMakesAtMostTwoReads :
    readWord (codeAt 0 [0x4E, 0x75]).mem 0 = .ok 0x4E75 ∧ readWord (codeAt 0 [0x60, 0x00]).mem 0 = .ok 0x6000 ∧
      readWord State.reset.mem 0 ≠ .ok 0x4E75 ∧ readWord State.reset.mem 0 ≠ .ok 0x6000 := by decide
theorem witness_StepDependsOnlyOnBytesItReads :
    AgreesWhereStepReads (codeAt 0 [0x60, 0x00, 0x00, 0x05]) (Memory.setBytes [] 0 [0x60, 0x00, 0x00, 0x05, 0x77]) := by
  unfold AgreesWhereStepReads
  decide
theorem witness_ReadByteIsBoundsChecked : 0x9FFFF < Config.memSize ∧ Config.memSize ≤ 0xA0000 := by decide
theorem witness_WideReadsAreBigEndian :
    0x9FFFE + 2 ≤ Config.memSize ∧ Config.memSize < 0x9FFFF + 2 ∧ 0x9FFFC + 4 ≤ Config.memSize ∧
      Config.memSize < 0x9FFFD + 4 := by decide
theorem witness_CanonicalMemoriesAreEqualByBytes :
    (Memory.setByte (Memory.setByte [] 9 1) 3 2).wf = true ∧ (Memory.setByte (Memory.setByte [] 3 2) 9 1).wf = true ∧
      ∀ a < Config.memSize, Memory.byteAt (Memory.setByte (Memory.setByte [] 9 1) 3 2) a =
        Memory.byteAt (Memory.setByte (Memory.setByte [] 3 2) 9 1) a :=
  ⟨by decide, by decide, fun _ _ => rfl⟩
theorem witness_LoadImageCopiesAllOrNothing :
    State.reset.mem.wf = true ∧ 0x9FFFD + [(1 : Byte), 2, 3].length ≤ Config.memSize ∧
      Config.memSize < 0x9FFFD + [(1 : Byte), 2, 3, 4].length := by decide
theorem witness_HostWritesReadBack :
    (codeAt 0x9FFFE [0x55, 0x66]).mem.wf = true ∧ 0x9FFFE + 2 ≤ Config.memSize ∧ Config.memSize < 0x9FFFF + 2 ∧
      0x9FFFF + 1 ≤ Config.memSize ∧ Config.memSize < 0xA0000 + 1 := by decide
theorem witness_FetchSeesHostWrite :
    (codeAt 0x9FFFE [0x55]).mem.wf = true ∧ (codeAt 0x9FFFE [0x55]).pc.toNat + 2 ≤ Config.memSize ∧
      decodeOp (BitVec.ofNat 16 0x4EBA) = some .jmp := by decide
theorem witness_PlacedWordRunsNext :
    (codeAt 0x9FFFE [0x55]).mem.wf = true ∧ decodeTableWord 16 0xD442 = some (.addL 2 2) ∧
      (codeAt 0x9FFFC [0x55]).pc.toNat + 4 ≤ Config.memSize := by decide
theorem witness_ResetIsZeroEverywhere : 0x9FFFF < Config.memSize ∧ Config.memSize ≤ 0xA0000 := by decide
theorem witness_HostReadsHaveNoEffect :
    HostOp.readWord 0x9FFFF ∈ [.getData 0, .getAddr 0, .getPc, .getFlag .z, .getCcr, .readByte 0x9FFFF, .readWord 0x9FFFF] := by
  decide

end Sys2Proof.Tests
end

section
/-! PROOFS. Scope: the arithmetic of 00_scope.md. -/

namespace Sys2Proof.Machine

/-- `sext` by the sign bit, as R10 writes it; `sext_eq` compares with half the range instead. -/
theorem sext_eq_msb_cond {n : Nat} (v : BitVec n) :
    sext v = if v.msb then (v.toNat : Int) - 2 ^ n else v.toNat := by
  rw [sext, BitVec.toInt_eq_msb_cond, Nat.cast_pow, Nat.cast_ofNat]

/-- Settles O41: the sign bit decides the signed reading, the unsigned reading of an n-bit value is below 2^n, and
truncation is the remainder (`trunc_toNat`), again an n-bit value. -/
theorem extensionAndTruncation : Obligations.ExtensionAndTruncation := by
  intro n
  refine ⟨sext_eq_msb_cond, fun v => ?unsigned, fun x => ?truncated⟩
  case unsigned => exact ⟨rfl, v.isLt⟩
  case truncated => exact ⟨trunc_toNat n x, (trunc n x).isLt⟩

end Sys2Proof.Machine
end

section
/-! PROOFS. Scope: who reads the flags, and what becomes of them (10_state.md R31). -/

namespace Sys2Proof.Machine

/-! ### Related outcomes -/

theorem OutcomesRelated.next {R : State → State → Prop} {s t : State} (h : R s t) :
    OutcomesRelated R (.next s) (.next t) := h

/-- The same read on both sides: the same fault, or the writes that follow it are related. -/
theorem OutcomesRelated.afterRead {α : Type} {R : State → State → Prop} {k k' : α → State} (r : Except Fault α)
    (h : ∀ x, R (k x) (k' x)) : OutcomesRelated R (afterRead r k) (afterRead r k') := by
  cases r with
  | ok x => exact h x
  | error f => exact rfl

/-! ### Flags read by an instruction -/

/-- The second state holds the same as the first in everything but the flags. -/
def SameButFlags (t t' : State) : Prop := t'.d = t.d ∧ t'.a = t.a ∧ t'.pc = t.pc ∧ t'.mem = t.mem

/-- Flags replaced before and after are nothing but flags replaced. -/
theorem sameButFlags_setCcr (t : State) (f g : Ccr) : SameButFlags (t.setCcr f) (t.setCcr g) := ⟨rfl, rfl, rfl, rfl⟩

/-- Every instruction but BLE.B has the same outcome but for the flags, whatever the flags before it (R31). -/
theorem exec_setCcr_sameButFlags {i : Instr} (s : State) (f : Ccr) (hi : ∀ disp8, i ≠ .bleB disp8) :
    OutcomesRelated SameButFlags (exec i s) (exec i (s.setCcr f)) := by
  cases i with
  | rts => exact .afterRead (readStack s) fun v => sameButFlags_setCcr ((advanceStack s).setPc v) _ _
  | moveB src dst => exact .next (sameButFlags_setCcr (setDregByte s dst (dregByte s src)) _ _)
  | addL src dst =>
    exact .next (sameButFlags_setCcr (s.setDreg dst (trunc 32 ((s.dreg dst).toNat + (s.dreg src).toNat))) _ _)
  | subW src dst =>
    exact .next (sameButFlags_setCcr (setAregWord s dst (aregSignedWord s dst - dregSignedWord s src)) _ _)
  | cmpB => exact .next (sameButFlags_setCcr s _ _)
  | jmp => exact .next (sameButFlags_setCcr (s.setPc (s.areg 2)) s.ccr f)
  | braW => exact .afterRead (readExtension s) fun ext => sameButFlags_setCcr (s.setPc (branchTarget16 s ext)) s.ccr f
  | bleB disp8 => exact absurd rfl (hi disp8)

/-- BLE.B's condition does not ask for C (44_control.md R163). -/
theorem lessOrEqual_with_c (f : Ccr) (c : Bool) : lessOrEqual { f with c := c } = lessOrEqual f := rfl

/-- Replacing C commutes with BLE.B, which so neither reads nor writes it (44_control.md R163). -/
theorem exec_bleB_replace_c (disp8 : Byte) (s : State) (c : Bool) :
    OutcomesRelated (fun t t' => t' = t.setCcr { t.ccr with c := c })
      (exec (.bleB disp8) s) (exec (.bleB disp8) (s.setCcr { s.ccr with c := c })) := by
  rw [exec_bleB, exec_bleB, State.setCcr_ccr, lessOrEqual_with_c]
  exact .next rfl

/-- The PC that BLE.B leaves: its target when `lessOrEqual` holds, else its own address (44_control.md R163). -/
theorem exec_bleB_pc (disp8 : Byte) (s : State) :
    (nextOf (exec (.bleB disp8) s)).map State.pc = some (if lessOrEqual s.ccr then branchTarget8 s disp8 else s.pc) := by
  rw [exec_bleB, s.pcPlus_zero]
  rfl

/-- The target of the one BLE.B the decoder gives, 17 bytes on, is never the BLE.B itself. -/
theorem branchTarget8_seventeen_ne_pc (s : State) : branchTarget8 s 0x11 ≠ s.pc := by
  intro h
  have target : ((branchTarget8 s 0x11).toNat : Int) = ((s.pc.toNat : Int) + 17) % 2 ^ 32 := s.pcPlus_toNat 17
  rw [h] at target
  have := s.pc.isLt
  omega

/-- Each of N, Z and V alone makes BLE.B branch, whatever C (44_control.md R163). -/
theorem lessOrEqual_of_single_flag {f : Ccr} {c : Bool}
    (hf : f ∈ [Ccr.mk true false false c, Ccr.mk false true false c, Ccr.mk false false true c]) :
    lessOrEqual f = true := by
  simp only [List.mem_cons, List.not_mem_nil, or_false] at hf
  obtain rfl | rfl | rfl := hf <;> rfl

/-! ### Flags written by an instruction -/

/-- The flags an instruction that completes leaves, as a function of the state before it (R30, R31). -/
def flagsAfter (i : Instr) (s : State) : Ccr :=
  match i with
  | .rts => clearOverflow s.ccr
  | .moveB src _ => moveByteFlags (dregByte s src)
  | .addL src dst => addLongFlags ((s.dreg dst).toNat + (s.dreg src).toNat)
  | .subW src dst => subWordFlags (aregSignedWord s dst - dregSignedWord s src)
  | .cmpB => compareByteFlags (dregByte s 5) (dregByte s 0)
  | .jmp => s.ccr
  | .braW => s.ccr
  | .bleB _ => s.ccr

theorem exec_next_ccr {i : Instr} {s t : State} (h : exec i s = .next t) : t.ccr = flagsAfter i s := by
  obtain ⟨rfl, _, _, rfl⟩ | ⟨_, _, rfl, rfl⟩ | ⟨_, _, rfl, rfl⟩ | ⟨_, _, rfl, rfl⟩ | ⟨rfl, rfl⟩ | ⟨rfl, rfl⟩ |
    ⟨rfl, _, _, rfl⟩ | ⟨_, rfl, rfl⟩ := exec_next_cases h <;> rfl

theorem getFlag_congr {s t : State} (g : Flag) (h : t.ccr = s.ccr) : getFlag g t = getFlag g s := by
  cases g <;> simp only [getFlag, h]

/-- An instruction leaves a flag as it was when `flagsAfter` does. -/
theorem exec_getFlag_kept {i : Instr} {g : Flag} (hi : ∀ s : State, getFlag g (s.setCcr (flagsAfter i s)) = getFlag g s)
    (s t : State) (h : exec i s = .next t) : getFlag g t = getFlag g s :=
  (getFlag_congr g (exec_next_ccr h)).trans (hi s)

/-- An instruction gives a flag a value no old flag plays a part in when `flagsAfter` does. -/
theorem exec_getFlag_independent {i : Instr} {g : Flag}
    (hi : ∀ (s : State) (f : Ccr), getFlag g (s.setCcr (flagsAfter i (s.setCcr f))) = getFlag g (s.setCcr (flagsAfter i s)))
    (s t t' : State) (f : Ccr) (h : exec i s = .next t) (h' : exec i (s.setCcr f) = .next t') :
    getFlag g t' = getFlag g t :=
  calc
    getFlag g t' = getFlag g (s.setCcr (flagsAfter i (s.setCcr f))) := getFlag_congr g (exec_next_ccr h')
    _ = getFlag g (s.setCcr (flagsAfter i s)) := hi s f
    _ = getFlag g t := (getFlag_congr g (exec_next_ccr h)).symm

/-- Per instruction and flag: the flag is kept, or its value is independent of the flags before. The transfers keep all
four, RTS all but V; the other instructions compute all four from registers. -/
theorem exec_flag_kept_or_independent (i : Instr) (g : Flag) :
    (∀ s t : State, exec i s = .next t → getFlag g t = getFlag g s) ∨
    (∀ (s t t' : State) (f : Ccr), exec i s = .next t → exec i (s.setCcr f) = .next t' → getFlag g t' = getFlag g t) := by
  cases i with
  | rts =>
    cases g with
    | v => exact .inr (exec_getFlag_independent fun _ _ => rfl)
    | z => exact .inl (exec_getFlag_kept fun _ => rfl)
    | n => exact .inl (exec_getFlag_kept fun _ => rfl)
    | c => exact .inl (exec_getFlag_kept fun _ => rfl)
  | moveB src dst => exact .inr (exec_getFlag_independent fun _ _ => rfl)
  | addL src dst => exact .inr (exec_getFlag_independent fun _ _ => rfl)
  | subW src dst => exact .inr (exec_getFlag_independent fun _ _ => rfl)
  | cmpB => exact .inr (exec_getFlag_independent fun _ _ => rfl)
  | jmp => exact .inl (exec_getFlag_kept fun _ => rfl)
  | braW => exact .inl (exec_getFlag_kept fun _ => rfl)
  | bleB disp8 => exact .inl (exec_getFlag_kept fun _ => rfl)

/-! ### Flags read by the host -/

/-- Writing back the 16-bit view gives the same flags, so the view shows all four (R42). -/
theorem Ccr.ofNat_toWord (f : Ccr) : Ccr.ofNat f.toWord.toNat = f := by
  obtain ⟨n, z, v, c⟩ := f
  cases n <;> cases z <;> cases v <;> cases c <;> rfl

/-- The host's answers to `get_ccr` tell any two flag settings apart (R31). -/
theorem ccr_eq_of_getCcr_eq {s t : State} (h : (act .getCcr s).2 = (act .getCcr t).2) : s.ccr = t.ccr := by
  have sameWord : s.ccr.toWord.toNat = t.ccr.toWord.toNat := Reply.value.inj h
  rw [← s.ccr.ofNat_toWord, sameWord, t.ccr.ofNat_toWord]

/-- Settles O29: `exec_setCcr_sameButFlags` and `exec_flag_kept_or_independent` for the instructions that read no flag,
`lessOrEqual` for the three BLE.B reads; CMP.B of equal bytes clears C where it was set. -/
theorem onlyBranchIfLessOrEqualReadsFlags : Obligations.OnlyBranchIfLessOrEqualReadsFlags := by
  refine ⟨fun _ s f hi => exec_setCcr_sameButFlags s f hi, fun i g _ => exec_flag_kept_or_independent i g,
    exec_bleB_replace_c, ?carryWritten, ?branches, fun _ _ => ccr_eq_of_getCcr_eq⟩
  case carryWritten =>
    exact ⟨.cmpB, State.reset.setCcr ⟨false, false, false, true⟩, _, exec_cmpB _, by decide⟩
  case branches =>
    intro s c f hf
    have taken : lessOrEqual f = true := lessOrEqual_of_single_flag hf
    have notTaken : lessOrEqual ⟨false, false, false, c⟩ = false := rfl
    rw [exec_bleB_pc, exec_bleB_pc, State.setCcr_ccr, State.setCcr_ccr, taken, notTaken]
    exact fun h => branchTarget8_seventeen_ne_pc s (Option.some.inj h)

end Sys2Proof.Machine
end

section
/-! PROOFS. Memory: who writes it, the host's byte read, and the loader (20_memory.md R51, R57, R58). -/

namespace Sys2Proof.Machine

/-! ### Nothing but three operations of the host writes memory (R57) -/

theorem step_next_mem {s t : State} (h : step s = .next t) : t.mem = s.mem := by
  obtain rfl | ⟨_, _, _, _, hexec⟩ := step_next_cases h
  · rfl
  · exact exec_next_mem hexec

/-- A step leaves the state as it was or at its next state (40_fetch_decode.md R106). -/
theorem stateAfter_eq_self_or_next (s : State) : stateAfter s = s ∨ step s = .next (stateAfter s) := by
  unfold stateAfter step
  cases (runStep s).1 with
  | next t => exact .inr rfl
  | fault f => exact .inl rfl
  | refused r => exact .inl rfl

theorem stateAfter_mem (s : State) : (stateAfter s).mem = s.mem := by
  obtain h | h := stateAfter_eq_self_or_next s
  · rw [h]
  · exact step_next_mem h

@[simp] theorem setFlag_mem (f : Flag) (b : Bool) (s : State) : (setFlag f b s).mem = s.mem := by
  cases f <;> rfl

/-- An operation that is not one of the three writers leaves memory as it was: a step by `stateAfter_mem`, the others
because they write a register or nothing. -/
theorem act_mem {op : HostOp} (s : State) (h : op.mayWriteMemory = false) : (act op s).1.mem = s.mem := by
  cases op with
  | step => exact stateAfter_mem s
  | setFlag f b => exact setFlag_mem f b s
  | getData | getAddr | getPc | getFlag | getCcr | readByte | readWord => rfl
  | setData | setAddr | setPc | setCcr | advancePc => rfl
  | loadImage | writeByte | writeWord => cases h

/-- Settles O23: no handler writes memory (`exec_next_mem`), so no step does, and no other operation of the host
(`act_mem`). -/
theorem onlyTheHostWritesMemory : Obligations.OnlyTheHostWritesMemory :=
  ⟨fun _ _ _ => exec_next_mem, fun _ _ => step_next_mem, fun _ => act_mem⟩

/-! ### The byte read (R51) -/

theorem bigEndianValue_one (m : Memory) (a : Nat) : bigEndianValue m a 1 = (m.byteAt a).toNat := by
  simp [bigEndianValue]

theorem act_readByte (a : Nat) (s : State) : act (.readByte a) s = (s, replyOfRead (readByte s.mem a)) := rfl

/-- Settles O34: both sides of the bound are `readByte_of_le` and `readByte_of_gt`, and the host is answered what the
read gives. -/
theorem readByteIsBoundsChecked : Obligations.ReadByteIsBoundsChecked := by
  refine ⟨fun m a => ⟨fun ha => ?byte, fun ha => ?error⟩,
    fun s a => ⟨fun ha => ?answerByte, fun ha => ?answerError⟩⟩
  case byte => exact ⟨m.byteAt a, readByte_of_le ha, rfl, (bigEndianValue_one m a).symm⟩
  case error => exact readByte_of_gt (Nat.lt_succ_of_le ha)
  case answerByte => rw [act_readByte, readByte_of_le ha, replyOfRead_ok]
  case answerError => rw [act_readByte, readByte_of_gt (Nat.lt_succ_of_le ha), replyOfRead_error]

/-! ### The loader (R58, 60_exceptions.md R203) -/

theorem loadImage_of_le {bytes : List Byte} {offset : Nat} {s : State} (h : offset + bytes.length ≤ Config.memSize) :
    loadImage bytes offset s = (s.setMem (s.mem.setBytes offset bytes), .ok) := by
  rw [loadImage, if_pos (inBounds_iff.mpr h)]

theorem loadImage_of_gt {bytes : List Byte} {offset : Nat} {s : State} (h : Config.memSize < offset + bytes.length) :
    loadImage bytes offset s = (s, .imageTooLarge) := by
  rw [loadImage, if_neg (mt inBounds_iff.mp (Nat.not_le.mpr h))]

/-- Whatever a step's outcome, the host is not told that an image is too large (60_exceptions.md R203). -/
theorem replyOfStep_ne_imageTooLarge (r : Host.Outcome State Fault Refusal × Option UnknownOpcode) :
    replyOfStep r ≠ .imageTooLarge := by
  obtain ⟨outcome, report⟩ := r
  cases outcome with
  | next t => cases report <;> exact nofun
  | fault f => obtain ⟨a, n⟩ := f; exact nofun
  | refused p => exact nofun

/-- Settles O37: an image that fits reads back inside (`byteAt_setBytes_inside`) and changes nothing outside
(`byteAt_setBytes_outside`); one that does not fit changes nothing. -/
theorem loadImageCopiesAllOrNothing : Obligations.LoadImageCopiesAllOrNothing := by
  refine ⟨fun bytes offset s hwf => ⟨fun hfit => ?copied, loadImage_of_gt⟩,
    fun s => replyOfStep_ne_imageTooLarge (runStep s)⟩
  case copied =>
    have inside : ∀ k (hk : k < bytes.length), (s.mem.setBytes offset bytes).byteAt (offset + k) = bytes[k] :=
      fun _ hk => Memory.byteAt_setBytes_inside hwf hfit hk
    have outside : ∀ a, a < offset ∨ offset + bytes.length ≤ a →
        (s.mem.setBytes offset bytes).byteAt a = s.mem.byteAt a :=
      fun _ ha => Memory.byteAt_setBytes_outside ha
    exact ⟨s.setMem (s.mem.setBytes offset bytes), loadImage_of_le hfit, inside, outside, rfl, rfl,
      fun _ => rfl, fun _ => rfl⟩

end Sys2Proof.Machine
end

section
/-! PROOFS. The opcode map: words outside it (30_encoding.md R87, 40_fetch_decode.md R104). -/

namespace Sys2Proof.Machine

/-- The decoder gives an instruction only for one of the eight literals (30_encoding.md R86). -/
theorem mem_literals_of_decodeOp {op : Word} {i : Instr} (h : decodeOp op = some i) :
    op ∈ [0x4E75#16, 0x1081#16, 0xD442#16, 0x91E7#16, 0xB045#16, 0x4EBA#16, 0x6000#16, 0x1111#16] := by
  obtain ⟨rfl, _⟩ | ⟨rfl, _⟩ | ⟨rfl, _⟩ | ⟨rfl, _⟩ | ⟨rfl, _⟩ | ⟨rfl, _⟩ | ⟨rfl, _⟩ | ⟨rfl, _⟩ := decodeOp_cases h <;>
    decide

/-- Settles O2: a word outside the literals misses the map (`mem_literals_of_decodeOp`), and a step on a miss is
`runStep_of_unknown`. -/
theorem otherWordsAreUnknownOpcodes : Obligations.OtherWordsAreUnknownOpcodes := by
  intro op hop
  have miss : decodeOp op = none := Option.eq_none_iff_forall_ne_some.mpr fun _ h => hop (mem_literals_of_decodeOp h)
  refine ⟨miss, fun s hfetch => ?step⟩
  case step =>
    have ran : runStep s = (.next s, some { value := op, address := s.pc }) := runStep_of_unknown hfetch miss
    exact ⟨congrArg Prod.fst ran, congrArg Prod.snd ran⟩

end Sys2Proof.Machine
end

section
/-! PROOFS. One step: fetch, decode, execute (40_fetch_decode.md R101, R102, R106). -/

namespace Sys2Proof.Machine

/-- The two parts of a step: its outcome is `step`'s, its report stands beside it (40_fetch_decode.md R107). -/
theorem step_and_report_of_runStep {s : State} {outcome : Host.Outcome State Fault Refusal}
    {report : Option UnknownOpcode} (h : runStep s = (outcome, report)) :
    step s = outcome ∧ (runStep s).2 = report := Prod.ext_iff.mp h

/-- A step that faults changes no state (40_fetch_decode.md R106). -/
theorem stateAfter_of_step_fault {s : State} {f : Fault} (h : step s = .fault f) : stateAfter s = s := by
  obtain same | next := stateAfter_eq_self_or_next s
  · exact same
  · rw [h] at next
    cases next

/-- Bytes that start with an opcode word decode to what the map gives for it, the first byte high (30_encoding.md R81). -/
theorem decode_cons_cons_eq_ok {hi lo : Byte} {rest : List Byte} {i : Instr} :
    decode (hi :: lo :: rest) = .ok i ↔ decodeOp (hi ++ lo) = some i := by
  rw [decode]
  cases decodeOp (hi ++ lo) with
  | none => simp only [reduceCtorEq]
  | some j => simp only [Except.ok.injEq, Option.some.injEq]

/-- Settles O5: the word in bounds is `fetchOpcode_of_le` with `append_byte_toNat`, and the step is the decoder's answer
for it; past the end the step faults, and a fault changes nothing (`stateAfter_of_step_fault`). -/
theorem fetchReadsWordAtPc : Obligations.FetchReadsWordAtPc := by
  refine fun s => ⟨fun hfit => ?inside, fun hpast => ?past⟩
  case inside =>
    have fetched := fetchOpcode_of_le hfit
    exact ⟨_, fetched, append_byte_toNat _ _,
      fun miss => (step_and_report_of_runStep (runStep_of_unknown fetched miss)).1,
      fun _ known => (step_and_report_of_runStep (runStep_of_known fetched known)).1⟩
  case past =>
    have faults : step s = .fault (.outOfBounds s.pc.toNat 2) :=
      (step_and_report_of_runStep (runStep_of_error (fetchOpcode_of_gt hpast))).1
    exact ⟨faults, stateAfter_of_step_fault faults⟩

/-- Settles O4: one clause per answer of the fetch and the decoder (`runStep_of_error`, `runStep_of_unknown`,
`runStep_of_known`); the bytes at PC are the fetched word's (`decode_cons_cons_eq_ok`). -/
theorem stepFetchesDecodesExecutes : Obligations.StepFetchesDecodesExecutes := by
  refine ⟨fun s f hread => ?fault, fun s op hread miss => ?unknown, fun s op i hread known => ?known,
    fun s i hfit hbytes => ?bytes⟩
  case fault => exact step_and_report_of_runStep (runStep_of_error hread)
  case unknown => exact step_and_report_of_runStep (runStep_of_unknown hread miss)
  case known => exact step_and_report_of_runStep (runStep_of_known hread known)
  case bytes =>
    exact step_and_report_of_runStep
      (runStep_of_known (fetchOpcode_of_le hfit) (decode_cons_cons_eq_ok.mp hbytes))

end Sys2Proof.Machine
end

section
/-! PROOFS. Data move: MOVE.B (41_data_move.md R120). -/

namespace Sys2Proof.Machine

/-- A step whose fetched word decodes is the run of that instruction (40_fetch_decode.md R101). -/
theorem step_of_known {s : State} {op : Word} {i : Instr} (hfetch : readWord s.mem s.pc.toNat = .ok op)
    (known : decodeOp op = some i) : step s = exec i s :=
  (step_and_report_of_runStep (runStep_of_known hfetch known)).1

@[simp] theorem dregByte_toNat (s : State) (i : RegIdx) : (dregByte s i).toNat = (s.dreg i).toNat % 256 :=
  lowByte_toNat _

/-! ### The flags of a moved byte -/

theorem moveByteFlags_z (b : Byte) : (moveByteFlags b).z = decide (b.toNat = 0) := by
  have zero_iff : b = 0 ↔ b.toNat = 0 := BitVec.toNat_inj.symm
  simp only [moveByteFlags, beq_eq_decide, zero_iff]

theorem moveByteFlags_n (b : Byte) : (moveByteFlags b).n = decide (128 ≤ b.toNat) := BitVec.msb_eq_decide b

/-! ### The register a byte is written to -/

theorem setDregByte_dreg_same (s : State) (i : RegIdx) (b : Byte) :
    (setDregByte s i b).dreg i = insertByte (s.dreg i) b := State.setDreg_dreg_same s i _

theorem setDregByte_sameDregsExcept (s : State) (i : RegIdx) (b : Byte) : SameDregsExcept i s (setDregByte s i b) :=
  fun _ other => State.setDreg_dreg_other s _ other

/-- Settles O11: the destination holds an insertion of the source's low byte (`insertByte_toNat`, `insertByte_upper`), the
flags are that byte's (`moveByteFlags_z`, `moveByteFlags_n`), and the two writes reach no other part of the state. -/
theorem moveByteReplacesLowByte : Obligations.MoveByteReplacesLowByte := by
  refine ⟨fun src dst s => ⟨_, exec_moveB src dst s, ?value, ?upper, ?zero, ?negative, rfl, rfl, rfl, ?others,
    fun _ => rfl, fun _ => rfl⟩, fun s hfetch => step_of_known hfetch (by decide)⟩
  case value => rw [State.setCcr_dreg, setDregByte_dreg_same, insertByte_toNat, dregByte_toNat]
  case upper => rw [State.setCcr_dreg, setDregByte_dreg_same, insertByte_upper]
  case zero => rw [State.setCcr_ccr, moveByteFlags_z, dregByte_toNat]
  case negative => rw [State.setCcr_ccr, moveByteFlags_n, dregByte_toNat]
  case others => exact setDregByte_sameDregsExcept s dst (dregByte s src)

end Sys2Proof.Machine
end

section
/-! PROOFS. Arithmetic: ADD.L (42_arithmetic.md R130). -/

namespace Sys2Proof.Machine

/-! ### The flags of a sum of unsigned longs -/

theorem addLongFlags_c (sum : Nat) : (addLongFlags sum).c = decide (sum > 0xFFFFFFFF) := by
  simp only [addLongFlags, decide_eq_decide]
  omega

theorem addLongFlags_n (sum : Nat) : (addLongFlags sum).n = decide (2 ^ 31 ≤ sum % 2 ^ 32) := by
  rw [← trunc_natCast]
  exact BitVec.msb_eq_decide (trunc 32 sum)

theorem addLongFlags_z (sum : Nat) : (addLongFlags sum).z = decide (sum % 2 ^ 32 = 0) := by
  have zero_iff : trunc 32 sum = 0 ↔ (trunc 32 sum).toNat = 0 := BitVec.toNat_inj.symm
  simp only [addLongFlags, beq_eq_decide, zero_iff, trunc_natCast]

/-- `exec_addL` with the sum taken on natural numbers, before the cast: the wider integer of R130 never goes below 0. -/
theorem exec_addL_natCast (src dst : RegIdx) (s : State) :
    exec (.addL src dst) s =
      .next ((s.setDreg dst (trunc 32 ((s.dreg dst).toNat + (s.dreg src).toNat : Nat))).setCcr
        (addLongFlags ((s.dreg dst).toNat + (s.dreg src).toNat : Nat))) := by
  rw [exec_addL, Nat.cast_add]

/-- Settles O12: the destination holds the truncated sum (`trunc_natCast`), the flags are those of the whole sum
(`addLongFlags_c`, `addLongFlags_n`, `addLongFlags_z`), and the two writes reach no other part of the state. -/
theorem addLongAddsModulo : Obligations.AddLongAddsModulo := by
  refine ⟨fun src dst s => ⟨_, exec_addL_natCast src dst s, ?value, addLongFlags_c _, addLongFlags_n _,
    addLongFlags_z _, addLongFlags_v _, rfl, ?others, fun _ => rfl, fun _ => rfl⟩,
    fun s hfetch => step_of_known hfetch (by decide)⟩
  case value => rw [State.setCcr_dreg, State.setDreg_dreg_same, trunc_natCast]
  case others => exact fun _ other => State.setDreg_dreg_other s _ other

end Sys2Proof.Machine
end

section
/-! PROOFS. Errors: which steps end in a fault, and what the host is told (60_exceptions.md R201). -/

namespace Sys2Proof.Machine

/-- The decoder's instruction encodes back to the word it came from (30_encoding.md R86). -/
theorem eq_encodeOp_of_decodeOp {op : Word} {i : Instr} (h : decodeOp op = some i) : op = encodeOp i := by
  obtain ⟨rfl, rfl⟩ | ⟨rfl, rfl⟩ | ⟨rfl, rfl⟩ | ⟨rfl, rfl⟩ | ⟨rfl, rfl⟩ | ⟨rfl, rfl⟩ | ⟨rfl, rfl⟩ | ⟨rfl, rfl⟩ :=
    decodeOp_cases h <;> decide

theorem exec_rts_of_gt {s : State} (h : Config.memSize < (s.areg 7).toNat + 4) :
    exec .rts s = .fault (.outOfBounds (s.areg 7).toNat 4) :=
  afterRead_eq_fault.mpr (readLong_of_gt h)

theorem exec_braW_of_gt {s : State} (h : Config.memSize < s.pc.toNat + 4) :
    exec .braW s = .fault (.outOfBounds (s.pc.toNat + 2) 2) :=
  afterRead_eq_fault.mpr (readWord_of_gt h)

/-- Every fault a step can end in: the fetch's, RTS's or BRA.W's, each exactly when that read does not fit
(44_control.md R160, R162, 40_fetch_decode.md R102). -/
theorem step_eq_fault_iff {s : State} {f : Fault} :
    step s = .fault f ↔
      (Config.memSize < s.pc.toNat + 2 ∧ f = .outOfBounds s.pc.toNat 2) ∨
      (readWord s.mem s.pc.toNat = .ok 0x4E75 ∧ Config.memSize < (s.areg 7).toNat + 4 ∧
        f = .outOfBounds (s.areg 7).toNat 4) ∨
      (readWord s.mem s.pc.toNat = .ok 0x6000 ∧ Config.memSize < s.pc.toNat + 4 ∧
        f = .outOfBounds (s.pc.toNat + 2) 2) := by
  constructor
  case mp =>
    intro h
    obtain ⟨hpast, ran⟩ | ⟨op, _, _, ran⟩ | ⟨op, i, hfetch, known, ran⟩ := runStep_cases s <;>
      rw [step, ran] at h
    · cases h
      exact .inl ⟨hpast, rfl⟩
    · cases h
    · have literal : op = encodeOp i := eq_encodeOp_of_decodeOp known
      obtain ⟨rfl, hpast, rfl⟩ | ⟨rfl, hpast, rfl⟩ := exec_eq_fault h <;> subst literal
      · exact .inr (.inl ⟨hfetch, hpast, rfl⟩)
      · exact .inr (.inr ⟨hfetch, hpast, rfl⟩)
  case mpr =>
    rintro (⟨hpast, rfl⟩ | ⟨hfetch, hpast, rfl⟩ | ⟨hfetch, hpast, rfl⟩)
    · exact (step_and_report_of_runStep (runStep_of_error (fetchOpcode_of_gt hpast))).1
    · exact (step_of_known hfetch (by decide)).trans (exec_rts_of_gt hpast)
    · exact (step_of_known hfetch (by decide)).trans (exec_braW_of_gt hpast)

/-- The host is answered the error of a step that faults, and finds the state as it was (40_fetch_decode.md R106, R107). -/
theorem act_step_of_fault {s : State} {a n : Nat} (h : step s = .fault (.outOfBounds a n)) :
    act .step s = (s, .outOfBounds a n) :=
  calc
    act .step s = (stateAfter s, replyOfStep (step s, (runStep s).2)) := rfl
    _ = (s, .outOfBounds a n) := by rw [stateAfter_of_step_fault h, h, replyOfStep_fault]

/-- The other six handlers complete from every state. -/
theorem exec_next_of_ne_rts_braW {i : Instr} (s : State) (hrts : i ≠ .rts) (hbraW : i ≠ .braW) :
    ∃ t, exec i s = .next t := by
  cases h : exec i s with
  | next t => exact ⟨t, rfl⟩
  | fault f =>
    obtain ⟨isRts, _⟩ | ⟨isBraW, _⟩ := exec_eq_fault h
    · exact absurd isRts hrts
    · exact absurd isBraW hbraW
  | refused p => exact absurd h (exec_ne_refused i s p)

/-- Settles O6: the faults are those of `step_eq_fault_iff`, each leaves the state (`stateAfter_of_step_fault`) and is the
host's answer (`act_step_of_fault`), and no other handler faults (`exec_next_of_ne_rts_braW`). -/
theorem onlyFetchReturnAndBranchFault : Obligations.OnlyFetchReturnAndBranchFault := by
  refine fun s => ⟨?faults, fun f h => ⟨stateAfter_of_step_fault h, ?answer⟩,
    fun _ hrts hbraW => exec_next_of_ne_rts_braW s hrts hbraW⟩
  case faults => simp only [step_eq_fault_iff, exists_or, exists_and_left, exists_eq, and_true]
  case answer =>
    obtain ⟨a, n⟩ := f
    exact ⟨a, n, act_step_of_fault h⟩

end Sys2Proof.Machine
end

section
/-! PROOFS. Encoding: the decoder and the encoder agree, on words and on bytes (30_encoding.md R81 to R86). -/

namespace Sys2Proof.Machine

/-! ### Words -/

theorem wellFormed_of_decodeOp {op : Word} {i : Instr} (h : decodeOp op = some i) : i.wellFormed = true := by
  obtain ⟨_, rfl⟩ | ⟨_, rfl⟩ | ⟨_, rfl⟩ | ⟨_, rfl⟩ | ⟨_, rfl⟩ | ⟨_, rfl⟩ | ⟨_, rfl⟩ | ⟨_, rfl⟩ := decodeOp_cases h <;> rfl

/-- The well-formed instructions are the eight of the opcode map: what holds of each holds of all (30_encoding.md R86). -/
theorem wellFormed_induction {motive : (i : Instr) → i.wellFormed = true → Prop} (rts : motive .rts rfl)
    (moveB : motive (.moveB 0 1) rfl) (addL : motive (.addL 2 2) rfl) (subW : motive (.subW 0 7) rfl)
    (cmpB : motive .cmpB rfl) (jmp : motive .jmp rfl) (braW : motive .braW rfl) (bleB : motive (.bleB 0x11) rfl)
    (i : Instr) (h : i.wellFormed = true) : motive i h := by
  have operands := h
  cases i with
  | rts | cmpB | jmp | braW => assumption
  | moveB src dst | addL src dst | subW src dst =>
    simp only [Instr.wellFormed, Bool.and_eq_true, beq_iff_eq] at operands
    obtain ⟨rfl, rfl⟩ := operands
    assumption
  | bleB disp8 =>
    obtain rfl := eq_of_beq operands
    assumption

/-- A well-formed instruction decodes from its own opcode word. -/
theorem decodeOp_encodeOp {i : Instr} (h : i.wellFormed = true) : decodeOp (encodeOp i) = some i := by
  induction i, h using wellFormed_induction with
  | rts | moveB | addL | subW | cmpB | jmp | braW | bleB => decide

/-! ### Bytes -/

/-- The two bytes of a word, put together, high byte first, are the word (20_memory.md R52). -/
theorem highByte_append_lowByte (w : Word) : w.extractLsb' 8 8 ++ w.extractLsb' 0 8 = w := by
  rw [BitVec.extractLsb'_append_extractLsb'_eq_extractLsb' (show 8 = 0 + 8 from rfl)]
  exact BitVec.extractLsb'_eq_self

/-- The decoder reads the word of the first two bytes and ignores the rest (30_encoding.md R80). -/
theorem decode_wordBytes_eq_ok {w : Word} {rest : List Byte} {i : Instr} :
    decode (wordBytes w ++ rest) = .ok i ↔ decodeOp w = some i := by
  have word : decode (wordBytes w ++ rest) = .ok i ↔ decodeOp (w.extractLsb' 8 8 ++ w.extractLsb' 0 8) = some i :=
    decode_cons_cons_eq_ok
  rwa [highByte_append_lowByte] at word

/-- The opcode word comes first, whatever follows it (30_encoding.md R81). -/
theorem encodeBytes_eq_wordBytes_append (i : Instr) (d16 : Int) :
    ∃ tail, encodeBytes i d16 = wordBytes (encodeOp i) ++ tail := by
  cases i with
  | braW => exact ⟨wordBytes (BitVec.ofInt 16 d16), rfl⟩
  | rts | moveB | addL | subW | cmpB | jmp | bleB => exact ⟨[], rfl⟩

/-- Settles O3: on words by `wellFormed_of_decodeOp`, `eq_encodeOp_of_decodeOp` and `decodeOp_encodeOp`; on bytes because the
opcode word comes first and is all the decoder reads (`decode_wordBytes_eq_ok`). -/
theorem decodeAndEncodeAgree : Obligations.DecodeAndEncodeAgree := by
  refine ⟨fun op i => ⟨fun h => ?decoded, ?encoded⟩, fun i d16 rest hwf => ?bytes⟩
  case decoded => exact ⟨wellFormed_of_decodeOp h, (eq_encodeOp_of_decodeOp h).symm⟩
  case encoded =>
    rintro ⟨hwf, rfl⟩
    exact decodeOp_encodeOp hwf
  case bytes =>
    obtain ⟨tail, layout⟩ := encodeBytes_eq_wordBytes_append i d16
    rw [layout, List.append_assoc]
    exact decode_wordBytes_eq_ok.mpr (decodeOp_encodeOp hwf)

/-- Settles O1: each literal is the opcode word of a well-formed instruction (`decodeOp_encodeOp`). -/
theorem eightLiteralsDecode : Obligations.EightLiteralsDecode :=
  ⟨decodeOp_encodeOp (i := .rts) rfl, decodeOp_encodeOp (i := .moveB 0 1) rfl, decodeOp_encodeOp (i := .addL 2 2) rfl,
    decodeOp_encodeOp (i := .subW 0 7) rfl, decodeOp_encodeOp (i := .cmpB) rfl, decodeOp_encodeOp (i := .jmp) rfl,
    decodeOp_encodeOp (i := .braW) rfl, decodeOp_encodeOp (i := .bleB 17) rfl⟩

end Sys2Proof.Machine
end

section
/-! PROOFS. Whole-machine invariants: canonical memory, the flags, the registers no step writes (10_state.md R22, R23, R30). -/

namespace Sys2Proof.Machine

/-! ### Flags -/

/-- No instruction sets Z and N together when they were not both set before. -/
theorem flagsAfter_not_both (i : Instr) {s : State} (h : ¬(s.ccr.z = true ∧ s.ccr.n = true)) :
    ¬((flagsAfter i s).z = true ∧ (flagsAfter i s).n = true) := by
  cases i with
  | moveB src dst => exact moveByteFlags_not_both _
  | addL src dst => exact addLongFlags_not_both _
  | subW src dst => exact subWordFlags_not_both _
  | cmpB => exact compareByteFlags_not_both _ _
  | rts | jmp | braW | bleB => exact h

/-- The instructions that write V clear it (42_arithmetic.md, end). -/
theorem flagsAfter_v_of_writer {i : Instr} (s : State) (hjmp : i ≠ .jmp) (hbraW : i ≠ .braW)
    (hbleB : ∀ disp8, i ≠ .bleB disp8) : (flagsAfter i s).v = false := by
  cases i with
  | rts => rfl
  | moveB src dst => exact moveByteFlags_v _
  | addL src dst => exact addLongFlags_v _
  | subW src dst => exact subWordFlags_v _
  | cmpB => exact compareByteFlags_v _ _
  | jmp => exact absurd rfl hjmp
  | braW => exact absurd rfl hbraW
  | bleB disp8 => exact absurd rfl (hbleB disp8)

theorem flagsAfter_v_of_clear (i : Instr) {s : State} (h : s.ccr.v = false) : (flagsAfter i s).v = false := by
  cases i with
  | jmp | braW | bleB => exact h
  | rts | moveB | addL | subW | cmpB => exact flagsAfter_v_of_writer s nofun nofun nofun

/-- The flags after a step are those before it, or those of the instruction it ran. -/
theorem step_next_ccr {s t : State} (h : step s = .next t) : t.ccr = s.ccr ∨ ∃ i, t.ccr = flagsAfter i s := by
  obtain rfl | ⟨_, i, _, _, hexec⟩ := step_next_cases h
  · exact .inl rfl
  · exact .inr ⟨i, exec_next_ccr hexec⟩

/-- Settles O24: memory is the same (`step_next_mem`), and the flags are the old ones or those of an instruction
(`flagsAfter_not_both`). -/
theorem stepKeepsInvariant : Obligations.StepKeepsInvariant := by
  rintro s t ⟨hwf, hflags⟩ h
  refine ⟨by rwa [step_next_mem h], ?flags⟩
  case flags =>
    obtain same | ⟨i, written⟩ := step_next_ccr h
    · rwa [same]
    · rw [written]
      exact flagsAfter_not_both i hflags

/-- Settles O25: the reset memory is empty (`State.reset_mem_wf`) and every flag is clear. -/
theorem resetMeetsInvariant : Obligations.ResetMeetsInvariant :=
  ⟨State.reset_mem_wf, fun ⟨zSet, _⟩ => Bool.false_ne_true zSet⟩

/-- Settles O30: V after an instruction is clear when the instruction writes it (`flagsAfter_v_of_writer`) or when it was
clear before (`flagsAfter_v_of_clear`). -/
theorem noStepSetsOverflow : Obligations.NoStepSetsOverflow := by
  refine ⟨fun s t h hclear => ?step, fun i s t h hjmp hbraW hbleB => ?writers⟩
  case step =>
    obtain same | ⟨i, written⟩ := step_next_ccr h
    · rwa [same]
    · rw [written]
      exact flagsAfter_v_of_clear i hclear
  case writers =>
    rw [exec_next_ccr h]
    exact flagsAfter_v_of_writer s hjmp hbraW hbleB

/-! ### Canonical memory over the host's operations -/

/-- A host write leaves canonical memory when the memory it writes is canonical; when it fails, memory is as it was. -/
theorem afterWrite_mem_wf {r : Except Fault Memory} {s : State} (hwritten : ∀ m, r = .ok m → m.wf = true)
    (hs : s.mem.wf = true) : (afterWrite r s).1.mem.wf = true := by
  cases r with
  | ok m => exact hwritten m rfl
  | error f =>
    obtain ⟨a, n⟩ := f
    exact hs

theorem loadImage_mem_wf {bytes : List Byte} {offset : Nat} {s : State} (hs : s.mem.wf = true) :
    (loadImage bytes offset s).1.mem.wf = true := by
  obtain ⟨hfit, loaded⟩ | ⟨_, refused⟩ := loadImage_cases bytes offset s
  · rw [loaded]
    exact Memory.setBytes_wf hs hfit
  · rwa [refused]

/-- One operation of the host keeps memory canonical: the three writers by the rules of their writes, every other one
leaves memory as it was (`act_mem`). -/
theorem act_mem_wf (op : HostOp) {s : State} (hs : s.mem.wf = true) : (act op s).1.mem.wf = true := by
  cases hop : op.mayWriteMemory with
  | false => rwa [act_mem s hop]
  | true =>
    cases op with
    | loadImage bytes offset => exact loadImage_mem_wf hs
    | writeByte a v => exact afterWrite_mem_wf (fun _ => writeByte_wf hs) hs
    | writeWord a v => exact afterWrite_mem_wf (fun _ => writeWord_wf hs) hs
    | _ => cases hop

theorem session_mem_wf (ops : List HostOp) {s : State} (hs : s.mem.wf = true) : (session ops s).mem.wf = true := by
  induction ops generalizing s with
  | nil => exact hs
  | cons op ops ih => exact ih (act_mem_wf op hs)

/-- Settles O26: by induction on the operations (`session_mem_wf`), and the reset memory is canonical. -/
theorem everySessionKeepsMemoryCanonical : Obligations.EverySessionKeepsMemoryCanonical :=
  ⟨fun ops _ => session_mem_wf ops, fun ops => session_mem_wf ops State.reset_mem_wf⟩

/-! ### Registers no step writes -/

/-- The second state holds the same as the first in every register but D2, A7, PC and the low byte of D1. -/
def KeepsUnwrittenRegisters (s t : State) : Prop :=
  (∀ i : RegIdx, i ≠ 1 → i ≠ 2 → t.dreg i = s.dreg i) ∧
  t.dreg 1 &&& 0xFFFFFF00#32 = s.dreg 1 &&& 0xFFFFFF00#32 ∧
  (∀ i : RegIdx, i ≠ 7 → t.areg i = s.areg i)

/-- An instruction the decoder can give writes D2, A7 and the low byte of D1 at most (10_state.md R22, R23). -/
theorem exec_keepsUnwrittenRegisters {i : Instr} {s t : State} (hwf : i.wellFormed = true) (h : exec i s = .next t) :
    KeepsUnwrittenRegisters s t := by
  induction i, hwf using wellFormed_induction with
  | rts =>
    obtain ⟨_, _, rfl⟩ := afterRead_eq_next.mp h
    exact ⟨fun _ _ _ => rfl, rfl, fun _ other => advanceStack_areg_other other⟩
  | braW =>
    obtain ⟨_, _, rfl⟩ := afterRead_eq_next.mp h
    exact ⟨fun _ _ _ => rfl, rfl, fun _ _ => rfl⟩
  | moveB =>
    cases h
    refine ⟨fun _ other _ => setDregByte_sameDregsExcept s 1 _ _ other, ?upper, fun _ _ => rfl⟩
    case upper => rw [State.setCcr_dreg, setDregByte_dreg_same, insertByte_upper]
  | addL =>
    cases h
    exact ⟨fun _ _ other => State.setDreg_dreg_other s _ other,
      congrArg (· &&& 0xFFFFFF00#32) (State.setDreg_dreg_other s _ (by decide)), fun _ _ => rfl⟩
  | subW =>
    cases h
    exact ⟨fun _ _ _ => rfl, rfl, fun _ other => State.setAreg_areg_other s _ other⟩
  | cmpB | jmp | bleB =>
    cases h
    exact ⟨fun _ _ _ => rfl, rfl, fun _ _ => rfl⟩

/-- Settles O27: a step changes nothing or runs an instruction the decoder gives, which is well formed
(`exec_keepsUnwrittenRegisters`). -/
theorem stepsLeaveUnwrittenRegisters : Obligations.StepsLeaveUnwrittenRegisters := by
  intro s t h
  obtain rfl | ⟨_, i, _, known, hexec⟩ := step_next_cases h
  · exact ⟨fun _ _ _ => rfl, rfl, fun _ _ => rfl⟩
  · exact exec_keepsUnwrittenRegisters (wellFormed_of_decodeOp known) hexec

end Sys2Proof.Machine
end

section
/-! PROOFS. Noninterference: the registers no step reads (10_state.md R22, R23). -/

namespace Sys2Proof.Machine

/-! ### Writes to states that agree -/

/-- A write of the same value to the same data register keeps two states in agreement on every data register they agreed on. -/
theorem State.setDreg_dreg_congr {s t : State} {j : RegIdx} (i : RegIdx) (v : Long) (h : t.dreg j = s.dreg j) :
    (t.setDreg i v).dreg j = (s.setDreg i v).dreg j := by
  by_cases hji : j = i
  · subst hji
    rw [State.setDreg_dreg_same, State.setDreg_dreg_same]
  · rw [State.setDreg_dreg_other t v hji, State.setDreg_dreg_other s v hji, h]

theorem State.setAreg_areg_congr {s t : State} {j : RegIdx} (i : RegIdx) (v : Long) (h : t.areg j = s.areg j) :
    (t.setAreg i v).areg j = (s.setAreg i v).areg j := by
  by_cases hji : j = i
  · subst hji
    rw [State.setAreg_areg_same, State.setAreg_areg_same]
  · rw [State.setAreg_areg_other t v hji, State.setAreg_areg_other s v hji, h]

section
variable {s t : State} (agree : AgreeOnWorkingState s t)
include agree

/-! A write of the same value to both states keeps them in agreement, whatever it writes. -/

theorem AgreeOnWorkingState.setDreg (i : RegIdx) (v : Long) : AgreeOnWorkingState (s.setDreg i v) (t.setDreg i v) := by
  obtain ⟨d0, d1, d2, d5, rest⟩ := agree
  exact ⟨State.setDreg_dreg_congr i v d0, State.setDreg_dreg_congr i v d1, State.setDreg_dreg_congr i v d2,
    State.setDreg_dreg_congr i v d5, rest⟩

theorem AgreeOnWorkingState.setAreg (i : RegIdx) (v : Long) : AgreeOnWorkingState (s.setAreg i v) (t.setAreg i v) := by
  obtain ⟨d0, d1, d2, d5, a2, a7, rest⟩ := agree
  exact ⟨d0, d1, d2, d5, State.setAreg_areg_congr i v a2, State.setAreg_areg_congr i v a7, rest⟩

theorem AgreeOnWorkingState.setPc (target : Long) : AgreeOnWorkingState (s.setPc target) (t.setPc target) := by
  obtain ⟨d0, d1, d2, d5, a2, a7, _, ccr, mem⟩ := agree
  exact ⟨d0, d1, d2, d5, a2, a7, rfl, ccr, mem⟩

theorem AgreeOnWorkingState.setCcr (f : Ccr) : AgreeOnWorkingState (s.setCcr f) (t.setCcr f) := by
  obtain ⟨d0, d1, d2, d5, a2, a7, pc, _, mem⟩ := agree
  exact ⟨d0, d1, d2, d5, a2, a7, pc, rfl, mem⟩

/-- An instruction the decoder can give reads the working state only. -/
theorem AgreeOnWorkingState.exec {i : Instr} (hwf : i.wellFormed = true) :
    OutcomesRelated AgreeOnWorkingState (exec i s) (exec i t) := by
  have ⟨d0, d1, d2, d5, a2, a7, pc, ccr, mem⟩ := agree
  induction i, hwf using wellFormed_induction with
  | rts =>
    have sameRead : readStack t = readStack s := by rw [readStack, readStack, stackPointer, a7, mem]
    rw [exec_rts, exec_rts, sameRead, ccr, advanceStack, advanceStack, stackPointer, a7]
    exact .afterRead _ fun v => ((agree.setAreg 7 _).setPc v).setCcr _
  | moveB =>
    rw [exec_moveB, exec_moveB, setDregByte, setDregByte, dregByte, dregByte, d0, d1]
    exact .next ((agree.setDreg 1 _).setCcr _)
  | addL =>
    rw [exec_addL, exec_addL, d2]
    exact .next ((agree.setDreg 2 _).setCcr _)
  | subW =>
    rw [exec_subW, exec_subW, setAregWord, setAregWord, aregSignedWord, aregSignedWord, dregSignedWord, dregSignedWord,
      a7, d0]
    exact .next ((agree.setAreg 7 _).setCcr _)
  | cmpB =>
    rw [exec_cmpB, exec_cmpB, dregByte, dregByte, dregByte, dregByte, d5, d0]
    exact .next (agree.setCcr _)
  | jmp =>
    rw [exec_jmp, exec_jmp, a2]
    exact .next (agree.setPc _)
  | braW =>
    have sameRead : readExtension t = readExtension s := by rw [readExtension, readExtension, pc, mem]
    rw [exec_braW, exec_braW, sameRead]
    refine .afterRead _ fun ext => ?_
    rw [branchTarget16, branchTarget16, State.pcPlus, State.pcPlus, pc]
    exact agree.setPc _
  | bleB =>
    rw [exec_bleB, exec_bleB, branchTarget8, branchTarget8, State.pcPlus, State.pcPlus, State.pcPlus, State.pcPlus, pc, ccr]
    exact .next (agree.setPc _)

/-- The fetch reads PC and memory only. -/
theorem AgreeOnWorkingState.fetchOpcode_eq : fetchOpcode t = fetchOpcode s := by
  obtain ⟨_, _, _, _, _, _, pc, _, mem⟩ := agree
  rw [fetchOpcode, fetchOpcode, pc, mem]

end

/-- Settles O28: the two states fetch the same word, so both fault alike, report the same miss at the same PC, or run the same
decoded instruction (`AgreeOnWorkingState.exec`). -/
theorem unreadRegistersDoNotInfluenceSteps : Obligations.UnreadRegistersDoNotInfluenceSteps := by
  intro s t agree
  have ⟨_, _, _, _, _, _, pc, _, _⟩ := agree
  unfold step
  obtain ⟨hpast, ran⟩ | ⟨op, hfetch, miss, ran⟩ | ⟨op, i, hfetch, known, ran⟩ := runStep_cases s <;> rw [ran]
  · rw [runStep_of_error (agree.fetchOpcode_eq.trans (fetchOpcode_of_gt hpast))]
    exact ⟨rfl, rfl⟩
  · rw [runStep_of_unknown (agree.fetchOpcode_eq.trans hfetch) miss, pc]
    exact ⟨.next agree, rfl⟩
  · rw [runStep_of_known (agree.fetchOpcode_eq.trans hfetch) known]
    exact ⟨agree.exec (wellFormed_of_decodeOp known), rfl⟩

end Sys2Proof.Machine
end

section
/-! PROOFS. Memory: wide reads, the canonical form, the host's writes, and a placed instruction (20_memory.md R52, R56,
R64). -/

namespace Sys2Proof.Machine

/-! ### Wide reads are big-endian (R52, R53) -/

theorem bigEndianValue_succ (m : Memory) (a n : Nat) :
    bigEndianValue m a (n + 1) = bigEndianValue m a n * 256 + (m.byteAt (a + n)).toNat := rfl

/-- Two bytes put together are their big-endian value. -/
theorem bigEndianValue_two (m : Memory) (a : Nat) :
    (m.byteAt a ++ m.byteAt (a + 1)).toNat = bigEndianValue m a 2 := by
  rw [append_byte_toNat, bigEndianValue_succ, bigEndianValue_one]

/-- Four bytes put together are their big-endian value. -/
theorem bigEndianValue_four (m : Memory) (a : Nat) :
    (m.byteAt a ++ m.byteAt (a + 1) ++ m.byteAt (a + 2) ++ m.byteAt (a + 3)).toNat = bigEndianValue m a 4 := by
  rw [append_byte_toNat, append_byte_toNat, bigEndianValue_two, bigEndianValue_succ m a 3, bigEndianValue_succ m a 2]

/-- A long is its two words, high word first. -/
theorem append_four_bytes (b₀ b₁ b₂ b₃ : Byte) : b₀ ++ b₁ ++ b₂ ++ b₃ = (b₀ ++ b₁) ++ (b₂ ++ b₃) :=
  BitVec.append_assoc.trans (BitVec.cast_eq _ _)

theorem act_readWord (a : Nat) (s : State) : act (.readWord a) s = (s, replyOfRead (readWord s.mem a)) := rfl

/-- Settles O35: in bounds the reads are `readWord_of_le` and `readLong_of_le`, whose bytes make the big-endian value
(`bigEndianValue_two`, `bigEndianValue_four`); past the end they are the error, and the host is answered what they give. -/
theorem wideReadsAreBigEndian : Obligations.WideReadsAreBigEndian := by
  refine ⟨fun m a => ⟨fun h => ?word, readWord_of_gt, fun h => ?long, readLong_of_gt⟩,
    fun s a => ⟨fun h => ?answerWord, fun h => ?answerError⟩⟩
  case word => exact ⟨_, readWord_of_le h, bigEndianValue_two m a⟩
  case long =>
    exact ⟨_, _, _, readLong_of_le h, bigEndianValue_four m a, readWord_of_le (by omega), readWord_of_le (by omega),
      append_four_bytes _ _ _ _⟩
  case answerWord => rw [act_readWord, readWord_of_le h, replyOfRead_ok, bigEndianValue_two]
  case answerError => rw [act_readWord, readWord_of_gt h, replyOfRead_error]

/-! ### Canonical memories are their bytes -/

/-- A canonical memory lists nothing below the address it starts from, so a byte that is not the unlisted one is not there. -/
theorem Memory.le_of_byteAt_ne_unlisted {lo a : Nat} {m : Memory} (h : Memory.wfFrom lo m = true)
    (ha : m.byteAt a ≠ Config.unlistedByte) : lo ≤ a :=
  Nat.le_of_not_lt fun hlt => ha (Memory.byteAt_below h hlt)

theorem Memory.byteAt_cons_same (k : Nat) (b : Byte) (rest : Memory) : Memory.byteAt ((k, b) :: rest) k = b := if_pos rfl

theorem Memory.byteAt_cons_other {k a : Nat} (b : Byte) (rest : Memory) (h : a ≠ k) :
    Memory.byteAt ((k, b) :: rest) a = rest.byteAt a := if_neg h.symm

/-- The first entry of a canonical memory is a byte other than the unlisted one. -/
theorem Memory.byteAt_head_ne_unlisted {lo k : Nat} {b : Byte} {rest : Memory}
    (h : Memory.wfFrom lo ((k, b) :: rest) = true) : Memory.byteAt ((k, b) :: rest) k ≠ Config.unlistedByte := by
  obtain ⟨_, _, hb, _⟩ := Memory.wfFrom_cons.mp h
  rwa [Memory.byteAt_cons_same]

/-- The first entry of a canonical memory is not before the first entry of another with the same bytes. -/
theorem Memory.head_le_of_same_bytes {lo k k' : Nat} {b b' : Byte} {rest rest' : Memory}
    (h : Memory.wfFrom lo ((k, b) :: rest) = true) (h' : Memory.wfFrom lo ((k', b') :: rest') = true)
    (same : ∀ a, Memory.byteAt ((k, b) :: rest) a = Memory.byteAt ((k', b') :: rest') a) : k ≤ k' := by
  obtain ⟨_, hk, hb, hrest⟩ := Memory.wfFrom_cons.mp h
  have fromHead : Memory.wfFrom k ((k, b) :: rest) = true := Memory.wfFrom_cons.mpr ⟨le_rfl, hk, hb, hrest⟩
  apply Memory.le_of_byteAt_ne_unlisted fromHead
  rw [same]
  exact Memory.byteAt_head_ne_unlisted h'

/-- Entry by entry: the first entries have the same address and byte, and the lists behind them the same bytes. -/
theorem Memory.eq_of_same_bytes {lo : Nat} {m m' : Memory} (h : Memory.wfFrom lo m = true)
    (h' : Memory.wfFrom lo m' = true) (same : ∀ a, m.byteAt a = m'.byteAt a) : m = m' := by
  induction m generalizing lo m' with
  | nil =>
    cases m' with
    | nil => rfl
    | cons c' rest' => exact absurd (same c'.1).symm (Memory.byteAt_head_ne_unlisted h')
  | cons c rest ih =>
    cases m' with
    | nil => exact absurd (same c.1) (Memory.byteAt_head_ne_unlisted h)
    | cons c' rest' =>
      obtain ⟨k, b⟩ := c
      obtain ⟨k', b'⟩ := c'
      obtain rfl : k = k' := Nat.le_antisymm (Memory.head_le_of_same_bytes h h' same)
        (Memory.head_le_of_same_bytes h' h fun a => (same a).symm)
      obtain rfl : b = b' := by simpa only [Memory.byteAt_cons_same] using same k
      obtain ⟨_, _, _, hrest⟩ := Memory.wfFrom_cons.mp h
      obtain ⟨_, _, _, hrest'⟩ := Memory.wfFrom_cons.mp h'
      have sameRest : ∀ a, Memory.byteAt rest a = Memory.byteAt rest' a := by
        intro a
        by_cases ha : a = k
        · rw [Memory.byteAt_below hrest (by omega), Memory.byteAt_below hrest' (by omega)]
        · simpa only [Memory.byteAt_cons_other b _ ha] using same a
      rw [ih hrest hrest' sameRest]

/-- Settles O36: past the array both memories read the unlisted byte (`Memory.byteAt_past`), so they have the same bytes
everywhere and are equal entry by entry. -/
theorem canonicalMemoriesAreEqualByBytes : Obligations.CanonicalMemoriesAreEqualByBytes := by
  intro m m' h h' same
  refine Memory.eq_of_same_bytes h h' fun a => ?everywhere
  case everywhere =>
    obtain inside | past := Nat.lt_or_ge a Config.memSize
    · exact same a inside
    · rw [Memory.byteAt_past h past, Memory.byteAt_past h' past]

/-! ### The host's writes (R56) -/

theorem act_writeByte_of_le {s : State} {a : Nat} (v : Nat) (h : a + 1 ≤ Config.memSize) :
    act (.writeByte a v) s = (s.setMem (s.mem.setByte a (BitVec.ofNat 8 v)), .ok) := by
  obtain ⟨_, written⟩ | ⟨hpast, _⟩ := writeByte_cases (m := s.mem) (a := a) (v := v)
  · rw [act, written, afterWrite]
  · omega

theorem act_writeByte_of_gt {s : State} {a : Nat} (v : Nat) (h : Config.memSize < a + 1) :
    act (.writeByte a v) s = (s, .outOfBounds a 1) := by
  obtain ⟨hfit, _⟩ | ⟨_, failed⟩ := writeByte_cases (m := s.mem) (a := a) (v := v)
  · omega
  · rw [act, failed, afterWrite]

/-- The two byte writes of a word write, high byte first (20_memory.md R56). -/
def putWord (m : Memory) (a v : Nat) : Memory :=
  (m.setByte a (BitVec.ofNat 8 (v / 256))).setByte (a + 1) (BitVec.ofNat 8 v)

theorem act_writeWord_of_le {s : State} {a : Nat} (v : Nat) (h : a + 2 ≤ Config.memSize) :
    act (.writeWord a v) s = (s.setMem (putWord s.mem a v), .ok) := by
  obtain ⟨_, written⟩ | ⟨hpast, _⟩ := writeWord_cases (m := s.mem) (a := a) (v := v)
  · rw [act, written, afterWrite, putWord]
  · omega

theorem act_writeWord_of_gt {s : State} {a : Nat} (v : Nat) (h : Config.memSize < a + 2) :
    act (.writeWord a v) s = (s, .outOfBounds a 2) := by
  obtain ⟨hfit, _⟩ | ⟨_, failed⟩ := writeWord_cases (m := s.mem) (a := a) (v := v)
  · omega
  · rw [act, failed, afterWrite]

section
variable {m : Memory} {a : Nat} (v : Nat)

theorem putWord_byteAt_high (h : m.wf = true) : (putWord m a v).byteAt a = BitVec.ofNat 8 (v / 256) := by
  rw [putWord, Memory.byteAt_setByte_other (by omega)]
  exact Memory.byteAt_setByte_same h

theorem putWord_byteAt_low (h : m.wf = true) (ha : a < Config.memSize) :
    (putWord m a v).byteAt (a + 1) = BitVec.ofNat 8 v :=
  Memory.byteAt_setByte_same (Memory.setByte_wf h ha)

theorem putWord_byteAt_other {a' : Nat} (high : a' ≠ a) (low : a' ≠ a + 1) :
    (putWord m a v).byteAt a' = m.byteAt a' := by
  rw [putWord, Memory.byteAt_setByte_other low, Memory.byteAt_setByte_other high]

/-- A word the host writes is the word read there, whoever reads it (20_memory.md R64). -/
theorem readWord_putWord (h : m.wf = true) (ha : a + 2 ≤ Config.memSize) :
    readWord (putWord m a v) a = .ok (BitVec.ofNat 16 v) := by
  have word : BitVec.ofNat 8 (v / 256) ++ BitVec.ofNat 8 v = BitVec.ofNat 16 v := by
    rw [← BitVec.toNat_inj, append_byte_toNat, BitVec.toNat_ofNat, BitVec.toNat_ofNat, BitVec.toNat_ofNat]
    omega
  rw [readWord_of_le ha, putWord_byteAt_high v h, putWord_byteAt_low v h (by omega), word]

end

/-- Settles O38: the bytes of a word write are `putWord_byteAt_high`, `putWord_byteAt_low` and `putWord_byteAt_other`, those of
a byte write `Memory.byteAt_setByte_same` and `Memory.byteAt_setByte_other`; a write that does not fit changes nothing. -/
theorem hostWritesReadBack : Obligations.HostWritesReadBack := by
  refine fun s a v hwf => ⟨fun h => ⟨_, act_writeWord_of_le v h, ?high, ?low, ?wordBack,
      fun _ => putWord_byteAt_other v, rfl, rfl, fun _ => rfl, fun _ => rfl⟩, act_writeWord_of_gt v,
    fun h => ⟨_, act_writeByte_of_le v h, ?byteBack,
      fun _ => Memory.byteAt_setByte_other, rfl, rfl, fun _ => rfl, fun _ => rfl⟩, act_writeByte_of_gt v⟩
  case high => rw [State.setMem_mem, putWord_byteAt_high v hwf, BitVec.toNat_ofNat]
  case low => rw [State.setMem_mem, putWord_byteAt_low v hwf (by omega), BitVec.toNat_ofNat]
  case wordBack => rw [act_readWord, State.setMem_mem, readWord_putWord v hwf h, replyOfRead_ok, BitVec.toNat_ofNat]
  case byteBack =>
    have back : (s.mem.setByte a (BitVec.ofNat 8 v)).byteAt a = BitVec.ofNat 8 v := Memory.byteAt_setByte_same hwf
    rw [act_readByte, State.setMem_mem, readByte_of_le h, back, replyOfRead_ok, BitVec.toNat_ofNat]

/-- Settles O39: the fetch reads the written word back (`readWord_putWord`). -/
theorem fetchSeesHostWrite : Obligations.FetchSeesHostWrite :=
  fun _ v _ hwf hfit known =>
    ⟨_, act_writeWord_of_le v hfit, rfl, step_of_known (readWord_putWord v hwf hfit) known⟩

/-! ### Bytes that lie in memory -/

/-- Bytes written inside a canonical memory lie there. -/
theorem holdsBytes_setBytes {m : Memory} {a : Nat} {bytes : List Byte} (h : m.wf = true)
    (hfit : a + bytes.length ≤ Config.memSize) : HoldsBytes (m.setBytes a bytes) a bytes :=
  fun _ hk => Memory.byteAt_setBytes_inside h hfit hk

theorem HoldsBytes.left {m : Memory} {a : Nat} {xs ys : List Byte} (h : HoldsBytes m a (xs ++ ys)) : HoldsBytes m a xs :=
  fun k hk => (h k (List.length_append ▸ Nat.lt_add_right _ hk)).trans (List.getElem_append_left hk)

theorem HoldsBytes.right {m : Memory} {a : Nat} {xs ys : List Byte} (h : HoldsBytes m a (xs ++ ys)) :
    HoldsBytes m (a + xs.length) ys := by
  intro k hk
  rw [Nat.add_assoc, List.getElem_append_right' xs hk, Nat.add_comm xs.length k]
  exact h (k + xs.length) _

/-- A word that lies in memory is read there. -/
theorem HoldsBytes.readWord_eq {m : Memory} {a : Nat} {w : Word} (h : HoldsBytes m a (wordBytes w))
    (ha : a + 2 ≤ Config.memSize) : readWord m a = .ok w := by
  have high : m.byteAt a = w.extractLsb' 8 8 := h 0 Nat.two_pos
  have low : m.byteAt (a + 1) = w.extractLsb' 0 8 := h 1 Nat.one_lt_two
  rw [readWord_of_le ha, high, low, highByte_append_lowByte]

/-! ### A placed instruction (log 20) -/

/-- The state an instruction is stored into is the state itself, or that state with PC at 0 when four bytes do not fit. -/
theorem withRoomAtPc_cases (s : State) :
    withRoomAtPc s = s ∨ (Config.memSize < s.pc.toNat + 4 ∧ withRoomAtPc s = s.setPc 0) := by
  unfold withRoomAtPc
  split
  case isTrue => exact .inl rfl
  case isFalse past => exact .inr ⟨Nat.lt_of_not_le (mt inBounds_iff.mpr past), rfl⟩

/-- Wherever PC was, four bytes fit at it before the instruction is stored. -/
theorem withRoomAtPc_fits (s : State) : (withRoomAtPc s).pc.toNat + 4 ≤ Config.memSize := by
  unfold withRoomAtPc
  split
  case isTrue fits => exact inBounds_iff.mp fits
  case isFalse => exact (by decide : 4 ≤ Config.memSize)

/-- The table word's first word is the one the decoder reads. -/
theorem decodeOp_of_decodeTableWord {nbits w : Nat} {i : Instr} (h : decodeTableWord nbits w = some i) :
    decodeOp (BitVec.ofNat 16 (w % 2 ^ nbits)) = some i := by
  refine (decode_wordBytes_eq_ok (rest := wordBytes (BitVec.ofNat 16 (w % 2 ^ nbits / 65536)))).mp ?_
  unfold decodeTableWord at h
  cases decoded : decode (tableWordBytes nbits w) with
  | ok j =>
    rw [decoded] at h
    cases h
    exact decoded
  | error reject =>
    rw [decoded] at h
    cases h

/-- The placed bytes are fetched: their first word lies at PC. -/
theorem fetch_withFetchWord {s : State} (hwf : s.mem.wf = true) (nbits w : Nat) :
    readWord (s.withFetchWord nbits w).mem (s.withFetchWord nbits w).pc.toNat = .ok (BitVec.ofNat 16 (w % 2 ^ nbits)) := by
  have fits := withRoomAtPc_fits s
  have canonical : (withRoomAtPc s).mem.wf = true := by
    obtain same | ⟨_, moved⟩ := withRoomAtPc_cases s
    · rwa [same]
    · rwa [moved]
  have held : HoldsBytes (s.withFetchWord nbits w).mem (withRoomAtPc s).pc.toNat (tableWordBytes nbits w) :=
    holdsBytes_setBytes canonical fits
  exact held.left.readWord_eq (by omega)

/-- Settles O40: the step fetches the placed word (`fetch_withFetchWord`), which decodes to the instruction; the rest of the
state is that of `withRoomAtPc_cases`. -/
theorem placedWordRunsNext : Obligations.PlacedWordRunsNext := by
  intro s nbits w i hwf hdec
  refine ⟨step_of_known (fetch_withFetchWord hwf nbits w) (decodeOp_of_decodeTableWord hdec), ?kept⟩
  case kept =>
    rw [State.withFetchWord, storeTableWord]
    obtain same | ⟨past, moved⟩ := withRoomAtPc_cases s
    · rw [same]
      exact ⟨fun _ => rfl, fun _ => rfl, rfl, fun _ => rfl⟩
    · rw [moved]
      exact ⟨fun _ => rfl, fun _ => rfl, rfl, fun fits => absurd past (Nat.not_lt.mpr fits)⟩

end Sys2Proof.Machine
end

section
/-! PROOFS. Outcomes: what a step ends in, what a fault names, and what a further step does (40_fetch_decode.md R104 to R108,
60_exceptions.md R200). -/

namespace Sys2Proof.Machine

/-! ### The three outcomes -/

theorem stateAfter_of_step_next {s t : State} (h : step s = .next t) : stateAfter s = t := by
  rw [step] at h
  rw [stateAfter, h]

/-- A fault names an access that does not fit (20_memory.md R53). -/
theorem past_of_step_fault {s : State} {a n : Nat} (h : step s = .fault (.outOfBounds a n)) : Config.memSize < a + n := by
  obtain ⟨past, e⟩ | ⟨_, past, e⟩ | ⟨_, past, e⟩ := step_eq_fault_iff.mp h <;> cases e <;> omega

/-- A step that faults reports no opcode: a report comes with a decode miss, which is no fault (40_fetch_decode.md R104). -/
theorem report_of_step_fault {s : State} {f : Fault} (h : step s = .fault f) : (runStep s).2 = none := by
  rw [step] at h
  obtain ⟨_, ran⟩ | ⟨_, _, _, ran⟩ | ⟨_, _, _, _, ran⟩ := runStep_cases s <;> rw [ran] at h ⊢
  cases h

theorem step_ne_refused (s : State) (p : Refusal) : step s ≠ .refused p := by
  rw [step]
  obtain ⟨_, ran⟩ | ⟨_, _, _, ran⟩ | ⟨_, i, _, _, ran⟩ := runStep_cases s <;> rw [ran]
  · exact nofun
  · exact nofun
  · exact exec_ne_refused i s p

/-- The host is told of a completed step and finds its next state (40_fetch_decode.md R107). -/
theorem act_step_of_next {s t : State} {report : Option UnknownOpcode} (h : step s = .next t)
    (hreport : (runStep s).2 = report) : act .step s = (t, replyOfStep (.next t, report)) :=
  calc
    act .step s = (stateAfter s, replyOfStep (step s, (runStep s).2)) := rfl
    _ = (t, replyOfStep (.next t, report)) := by rw [stateAfter_of_step_next h, h, hreport]

/-- A step reports exactly the decode misses (40_fetch_decode.md R104). -/
theorem unknown_of_report {s : State} {report : UnknownOpcode} (h : (runStep s).2 = some report) :
    ∃ op, fetchOpcode s = .ok op ∧ decodeOp op = none ∧ step s = .next s ∧
      report = { value := op, address := s.pc } := by
  obtain ⟨_, ran⟩ | ⟨op, hfetch, miss, ran⟩ | ⟨_, _, _, _, ran⟩ := runStep_cases s <;> rw [ran] at h
  · cases h
  · cases h
    exact ⟨op, hfetch, miss, congrArg Prod.fst ran, rfl⟩
  · cases h

/-- Settles O8: by the outcome and, for a next state, by the report: none, or that of a decode miss (`unknown_of_report`); a
fault names an access that does not fit (`past_of_step_fault`), and no step is refused. -/
theorem stepEndsInOneOfThreeOutcomes : Obligations.StepEndsInOneOfThreeOutcomes := by
  intro s
  cases houtcome : step s with
  | next t =>
    cases hreport : (runStep s).2 with
    | none => exact .inl ⟨t, rfl, rfl, stateAfter_of_step_next houtcome, act_step_of_next houtcome hreport⟩
    | some report =>
      obtain ⟨op, hfetch, miss, unchanged, rfl⟩ := unknown_of_report hreport
      rw [houtcome] at unchanged
      cases unchanged
      exact .inr (.inl ⟨op, hfetch, miss, rfl, rfl, stateAfter_of_step_next houtcome,
        act_step_of_next houtcome hreport⟩)
  | fault f =>
    obtain ⟨a, n⟩ := f
    exact .inr (.inr ⟨a, n, rfl, report_of_step_fault houtcome, past_of_step_fault houtcome,
      stateAfter_of_step_fault houtcome, act_step_of_fault houtcome⟩)
  | refused p => exact absurd houtcome (step_ne_refused s p)

/-! ### What a fault names -/

/-- Settles O7: a fetch past the end faults with PC and 2; a step that fetches RTS or BRA.W faults as that instruction does
(`exec_eq_fault`); the host is answered the fault (`act_step_of_fault`). -/
theorem faultNamesItsAccess : Obligations.FaultNamesItsAccess := by
  refine fun s f h => ⟨fun past => ?fetch, fun hfetch => ?stackRead, fun hfetch => ?extension, fun a n e => ?answer⟩
  case fetch =>
    rw [step, runStep_of_error (fetchOpcode_of_gt past)] at h
    cases h
    rfl
  case stackRead =>
    rw [step_of_known (i := .rts) hfetch (by decide)] at h
    obtain ⟨_, _, e⟩ | ⟨isBraW, _⟩ := exec_eq_fault h
    · exact e
    · cases isBraW
  case extension =>
    rw [step_of_known (i := .braW) hfetch (by decide)] at h
    obtain ⟨isRts, _⟩ | ⟨_, _, e⟩ := exec_eq_fault h
    · cases isRts
    · exact e
  case answer =>
    subst e
    exact act_step_of_fault h

/-! ### A further step -/

/-- Settles O9: a fault (`stateAfter_of_step_fault`) and a report (`unknown_of_report`) both leave the state, from which the
step is the same. -/
theorem faultOrUnknownStepRepeats : Obligations.FaultOrUnknownStepRepeats := by
  intro s h
  have unmoved : stateAfter s = s := by
    obtain ⟨f, faults⟩ | reports := h
    · exact stateAfter_of_step_fault faults
    · obtain ⟨report, hreport⟩ := Option.ne_none_iff_exists'.mp reports
      obtain ⟨_, _, _, unchanged, _⟩ := unknown_of_report hreport
      exact stateAfter_of_step_next unchanged
  exact ⟨unmoved, congrArg runStep unmoved⟩

/-- A run from a state that steps to itself stays there. -/
theorem run_of_step_self {s : State} (h : step s = .next s) (n : Nat) : Sys2Proof.core.run n s = .next s := by
  induction n with
  | zero => rfl
  | succ n ih => exact (run_succ_of_next n h).trans ih

/-- Settles O10: a step on a decode miss leaves the state (`runStep_of_unknown`), so every further step does. -/
theorem unknownOpcodeRunsForEver : Obligations.UnknownOpcodeRunsForEver :=
  fun _ _ hfetch miss => run_of_step_self (congrArg Prod.fst (runStep_of_unknown hfetch miss))

end Sys2Proof.Machine
end

section
/-! PROOFS. Reads: which bytes a step reads, and that no other byte matters (20_memory.md R53, R55). -/

namespace Sys2Proof.Machine

/-! ### The reads of a step, by the answer of its fetch -/

section
variable {s : State}

theorem stepReads_of_error {f : Fault} (h : fetchOpcode s = .error f) :
    stepReads s = [{ addr := s.pc.toNat, width := 2 }] := by
  rw [stepReads, h]

theorem stepReads_of_unknown {op : Word} (h : fetchOpcode s = .ok op) (miss : decodeOp op = none) :
    stepReads s = [{ addr := s.pc.toNat, width := 2 }] := by
  simp only [stepReads, h, miss]

theorem stepReads_of_known {op : Word} {i : Instr} (h : fetchOpcode s = .ok op) (known : decodeOp op = some i) :
    stepReads s = { addr := s.pc.toNat, width := 2 } :: handlerReads i s := by
  simp only [stepReads, h, known]

/-- A fetch that succeeds fits. -/
theorem fits_of_fetchOpcode {op : Word} (h : fetchOpcode s = .ok op) : s.pc.toNat + 2 ≤ Config.memSize := by
  by_contra past
  rw [fetchOpcode_of_gt (Nat.lt_of_not_le past)] at h
  cases h

end

/-- A step makes the fetch alone, or the fetch and the reads of the instruction it decodes. -/
theorem stepReads_cases (s : State) :
    stepReads s = [{ addr := s.pc.toNat, width := 2 }] ∨
    ∃ op i, fetchOpcode s = .ok op ∧ decodeOp op = some i ∧
      stepReads s = { addr := s.pc.toNat, width := 2 } :: handlerReads i s := by
  obtain ⟨past, _⟩ | ⟨_, hfetch, miss, _⟩ | ⟨op, i, hfetch, known, _⟩ := runStep_cases s
  · exact .inl (stepReads_of_error (fetchOpcode_of_gt past))
  · exact .inl (stepReads_of_unknown hfetch miss)
  · exact .inr ⟨op, i, hfetch, known, stepReads_of_known hfetch known⟩

/-- Only RTS and BRA.W read memory. -/
theorem handlerReads_of_ne_rts_braW {i : Instr} (s : State) (hrts : i ≠ .rts) (hbraW : i ≠ .braW) :
    handlerReads i s = [] := by
  cases i with
  | rts => exact absurd rfl hrts
  | braW => exact absurd rfl hbraW
  | moveB | addL | subW | cmpB | jmp | bleB => rfl

theorem handlerReads_length_le_one (i : Instr) (s : State) : (handlerReads i s).length ≤ 1 := by
  cases i with
  | rts | braW => exact le_rfl
  | moveB | addL | subW | cmpB | jmp | bleB => exact Nat.zero_le 1

/-- Settles O31: the reads are the fetch's and the decoded instruction's (`stepReads_cases`); an instruction that is not
RTS or BRA.W reads nothing (`handlerReads_of_ne_rts_braW`). -/
theorem stepMakesAtMostTwoReads : Obligations.StepMakesAtMostTwoReads := by
  refine fun s => ⟨?atMostTwo, rfl, fun hfetch => stepReads_of_known hfetch (i := .rts) (by decide),
    fun hfetch => stepReads_of_known hfetch (i := .braW) (by decide), fun notRts notBraW => ?fetchOnly⟩
  case atMostTwo =>
    obtain reads | ⟨_, i, _, _, reads⟩ := stepReads_cases s <;> rw [reads]
    · exact one_le_two
    · exact Nat.succ_le_succ (handlerReads_length_le_one i s)
  case fetchOnly =>
    obtain reads | ⟨op, i, hfetch, known, reads⟩ := stepReads_cases s <;> rw [reads]
    · rfl
    · have literal : readWord s.mem s.pc.toNat = .ok (encodeOp i) := eq_encodeOp_of_decodeOp known ▸ hfetch
      have hrts : i ≠ .rts := by rintro rfl; exact notRts literal
      have hbraW : i ≠ .braW := by rintro rfl; exact notBraW literal
      rw [handlerReads_of_ne_rts_braW s hrts hbraW]
      rfl

/-! ### A step is safe when its reads fit -/

/-- A handler faults exactly when its read does not fit (60_exceptions.md R201). -/
theorem faultOf_exec_eq_none_iff (i : Instr) (s : State) :
    faultOf (exec i s) = none ↔ ∀ acc ∈ handlerReads i s, acc.addr + acc.width ≤ Config.memSize := by
  cases i with
  | rts =>
    rw [exec_rts, handlerReads, List.forall_mem_singleton, stackPointer]
    obtain ⟨fits, _, read, _⟩ | ⟨past, read⟩ := readStack_cases s <;> rw [read]
    · exact iff_of_true rfl fits
    · exact iff_of_false nofun (Nat.not_le.mpr past)
  | braW =>
    rw [exec_braW, handlerReads, List.forall_mem_singleton]
    obtain ⟨fits, read⟩ | ⟨past, read⟩ := readExtension_cases s <;> rw [read]
    · exact iff_of_true rfl fits
    · exact iff_of_false nofun (Nat.not_le.mpr past)
  | moveB | addL | subW | cmpB | jmp | bleB => exact iff_of_true rfl nofun

/-- Settles O33: a step that cannot fetch is not safe; one that does not decode reads nothing more; else the handler's read
decides (`faultOf_exec_eq_none_iff`). -/
theorem stepIsSafeIffItsReadsFit : Obligations.StepIsSafeIffItsReadsFit := by
  intro s
  unfold SafeStep step
  obtain ⟨past, ran⟩ | ⟨_, hfetch, miss, ran⟩ | ⟨_, i, hfetch, known, ran⟩ := runStep_cases s <;> rw [ran]
  · rw [stepReads_of_error (fetchOpcode_of_gt past), List.forall_mem_singleton]
    exact iff_of_false nofun (Nat.not_le.mpr past)
  · rw [stepReads_of_unknown hfetch miss, List.forall_mem_singleton]
    exact iff_of_true rfl (fits_of_fetchOpcode hfetch)
  · rw [stepReads_of_known hfetch known, List.forall_mem_cons, faultOf_exec_eq_none_iff,
      and_iff_right (fits_of_fetchOpcode hfetch)]

/-! ### No other byte matters -/

section
variable {m m' : Memory} {a : Nat}

/-- A word read depends on its two bytes only. -/
theorem readWord_congr (h : ∀ k < 2, m'.byteAt (a + k) = m.byteAt (a + k)) : readWord m' a = readWord m a := by
  rw [readWord, readWord, h 1 (by decide), show m'.byteAt a = m.byteAt a from h 0 (by decide)]

/-- A long read depends on its four bytes only. -/
theorem readLong_congr (h : ∀ k < 4, m'.byteAt (a + k) = m.byteAt (a + k)) : readLong m' a = readLong m a := by
  rw [readLong, readLong, h 1 (by decide), h 2 (by decide), h 3 (by decide),
    show m'.byteAt a = m.byteAt a from h 0 (by decide)]

end

/-- With a memory that holds the same bytes where the handler reads, an instruction does the same and carries that memory
along. -/
theorem exec_setMem {i : Instr} {s : State} {m : Memory}
    (same : ∀ acc ∈ handlerReads i s, ∀ k < acc.width, m.byteAt (acc.addr + k) = s.mem.byteAt (acc.addr + k)) :
    OutcomesRelated (fun t t' => t' = t.setMem m) (exec i s) (exec i (s.setMem m)) := by
  cases i with
  | rts =>
    have sameRead : readStack (s.setMem m) = readStack s := readLong_congr (same _ (List.mem_singleton_self _))
    rw [exec_rts, exec_rts, sameRead]
    exact .afterRead _ fun _ => rfl
  | braW =>
    have sameRead : readExtension (s.setMem m) = readExtension s := readWord_congr (same _ (List.mem_singleton_self _))
    rw [exec_braW, exec_braW, sameRead]
    exact .afterRead _ fun _ => rfl
  | moveB | addL | subW | cmpB | jmp | bleB => exact .next rfl

/-- Settles O32: both memories give the same fetch (`readWord_congr`), so both steps fault alike, report the same miss, or run
the same instruction (`exec_setMem`). -/
theorem stepDependsOnlyOnBytesItReads : Obligations.StepDependsOnlyOnBytesItReads := by
  intro s m same
  have sameFetch : fetchOpcode (s.setMem m) = fetchOpcode s := readWord_congr (same _ List.mem_cons_self)
  unfold step
  obtain ⟨past, ran⟩ | ⟨_, hfetch, miss, ran⟩ | ⟨_, i, hfetch, known, ran⟩ := runStep_cases s <;> rw [ran]
  · rw [runStep_of_error (sameFetch.trans (fetchOpcode_of_gt past))]
    exact ⟨rfl, rfl⟩
  · rw [runStep_of_unknown (sameFetch.trans hfetch) miss]
    exact ⟨.next rfl, rfl⟩
  · rw [runStep_of_known (sameFetch.trans hfetch) known]
    have sameHandlerReads : ∀ acc ∈ handlerReads i s, ∀ k < acc.width,
        m.byteAt (acc.addr + k) = s.mem.byteAt (acc.addr + k) := by
      intro acc hacc
      exact same acc (stepReads_of_known hfetch known ▸ List.mem_cons_of_mem _ hacc)
    exact ⟨exec_setMem sameHandlerReads, rfl⟩

end Sys2Proof.Machine
end

section
/-! PROOFS. Arithmetic and compare: SUB.W, CMP.B (42_arithmetic.md R131, 43_compare.md R150). -/

namespace Sys2Proof.Machine

/-! ### SUB.W -/

/-- `sext` is the claims' own signed reading of the same bits (00_scope.md R10). -/
theorem sext_eq_signedOf {n : Nat} (v : BitVec n) : sext v = signedOf n v.toNat := by
  rw [sext_eq_msb_cond, BitVec.msb_eq_decide, signedOf]
  simp only [decide_eq_true_eq]

theorem aregSignedWord_eq (s : State) (i : RegIdx) :
    aregSignedWord s i = signedOf 16 ((s.areg i).toNat % 65536) := by
  rw [aregSignedWord, sext_eq_signedOf, lowWord_toNat]

theorem dregSignedWord_eq (s : State) (i : RegIdx) :
    dregSignedWord s i = signedOf 16 ((s.dreg i).toNat % 65536) := by
  rw [dregSignedWord, sext_eq_signedOf, lowWord_toNat]

theorem subWordFlags_z (r : Int) : (subWordFlags r).z = decide (r = 0) := by
  unfold subWordFlags
  split
  case isTrue zero => exact (decide_eq_true zero).symm
  case isFalse nonzero =>
    rw [decide_eq_false nonzero]
    split <;> rfl

theorem subWordFlags_n (r : Int) : (subWordFlags r).n = decide (r < 0) := by
  unfold subWordFlags
  split
  case isTrue zero => rw [zero]; rfl
  case isFalse =>
    split
    case isTrue negative => exact (decide_eq_true negative).symm
    case isFalse positive => exact (decide_eq_false positive).symm

theorem subWordFlags_c (r : Int) : (subWordFlags r).c = false := by
  unfold subWordFlags
  split
  · rfl
  · split <;> rfl

/-- SUB.W's store: the low 16 bits of the difference, the upper half cleared (decision D11). -/
theorem setAregWord_areg_same (s : State) (i : RegIdx) (r : Int) :
    (((setAregWord s i r).areg i).toNat : Int) = r % 65536 := by
  rw [setAregWord, State.setAreg_areg_same, wordToLong_toNat]
  exact trunc_toNat 16 r

theorem setAregWord_sameAregsExcept (s : State) (i : RegIdx) (r : Int) : SameAregsExcept i s (setAregWord s i r) :=
  fun _ other => State.setAreg_areg_other s _ other

/-- Settles O13: the operands are the registers' low words read as signed numbers (`aregSignedWord_eq`, `dregSignedWord_eq`),
the store is `setAregWord_areg_same`, and the flags are those of the exact difference. -/
theorem subtractWordFromAddressRegister : Obligations.SubtractWordFromAddressRegister := by
  refine ⟨fun src dst s => ?completes, fun s hfetch => step_of_known hfetch (by decide)⟩
  case completes =>
    rw [← aregSignedWord_eq, ← dregSignedWord_eq]
    refine ⟨_, exec_subW src dst s, setAregWord_areg_same s dst _, ?zero, ?negative, subWordFlags_c _, subWordFlags_v _,
      rfl, fun _ => rfl, setAregWord_sameAregsExcept s dst _, fun _ => rfl⟩
    case zero => rw [State.setCcr_ccr, subWordFlags_z, decide_eq_decide, sub_eq_zero]
    case negative => rw [State.setCcr_ccr, subWordFlags_n, decide_eq_decide, sub_neg]

/-! ### CMP.B -/

section
variable {dst src : Byte}

theorem compareByteFlags_of_lt (h : dst.toNat < src.toNat) :
    compareByteFlags dst src = { n := true, z := false, v := false, c := true } := if_pos h

theorem compareByteFlags_of_gt (h : src.toNat < dst.toNat) :
    compareByteFlags dst src = { n := false, z := false, v := false, c := true } :=
  (if_neg (Nat.not_lt_of_gt h)).trans (if_pos h)

theorem compareByteFlags_of_eq (h : dst.toNat = src.toNat) :
    compareByteFlags dst src = { n := false, z := true, v := false, c := false } :=
  (if_neg h.not_lt).trans (if_neg h.not_gt)

end

/-- CMP.B leaves C the opposite of Z, whichever way the comparison goes (43_compare.md R150). -/
theorem compareByteFlags_c_eq_not_z (dst src : Byte) :
    (compareByteFlags dst src).c = !(compareByteFlags dst src).z := by
  obtain less | equal | greater := Nat.lt_trichotomy dst.toNat src.toNat
  · rw [compareByteFlags_of_lt less]; rfl
  · rw [compareByteFlags_of_eq equal]; rfl
  · rw [compareByteFlags_of_gt greater]; rfl

/-- Settles O14: the three cases of `compareByteFlags` on the two low bytes; only the flags are written. -/
theorem compareByteSetsFlagsOnly : Obligations.CompareByteSetsFlagsOnly := by
  refine ⟨fun s => ?completes, fun s hfetch => step_of_known hfetch (by decide)⟩
  case completes =>
    rw [← dregByte_toNat, ← dregByte_toNat]
    exact ⟨_, exec_cmpB s, compareByteFlags_of_lt, compareByteFlags_of_gt, compareByteFlags_of_eq,
      compareByteFlags_c_eq_not_z _ _, rfl, fun _ => rfl, fun _ => rfl, fun _ => rfl⟩

end Sys2Proof.Machine
end

section
/-! PROOFS. Control transfer: RTS, JMP, BRA.W, BLE.B (44_control.md R160 to R163). -/

namespace Sys2Proof.Machine

/-! ### RTS and JMP -/

/-- Settles O15: the popped long is big-endian (`bigEndianValue_four`), A7 cannot wrap below MEM_SIZE (`advanceStack_areg`),
and a stack read past the end is RTS's fault (`exec_rts_of_gt`). -/
theorem returnPopsProgramCounter : Obligations.ReturnPopsProgramCounter := by
  refine fun s => ⟨fun fits => ⟨_, afterRead_eq_next.mpr ⟨_, readLong_of_le fits, rfl⟩, bigEndianValue_four s.mem _, ?stack,
    rfl, rfl, rfl, rfl, fun _ => rfl, fun _ other => advanceStack_areg_other other, fun _ => rfl⟩, exec_rts_of_gt⟩
  case stack =>
    have noWrap : (s.areg 7).toNat + 4 < 2 ^ 32 := lt_of_le_of_lt fits (by decide)
    rw [State.setCcr_areg, State.setPc_areg, advanceStack_areg, Nat.mod_eq_of_lt noWrap]

/-- Settles O16: JMP is one write of PC (`exec_jmp`). -/
theorem jumpTakesAddressRegister : Obligations.JumpTakesAddressRegister :=
  fun s => ⟨_, exec_jmp s, rfl, rfl, fun _ => rfl, fun _ => rfl, fun _ => rfl⟩

/-! ### BRA.W -/

/-- BRA.W's target: two past the opcode word, plus the signed extension word (decision D13). -/
theorem branchTarget16_toNat (s : State) (ext : Word) :
    ((branchTarget16 s ext).toNat : Int) = ((s.pc.toNat : Int) + 2 + sext ext) % 2 ^ 32 := by
  rw [branchTarget16, State.pcPlus_toNat, ← add_assoc]
  rfl

/-- BRA.W with its extension word read: PC is the target, and nothing else changes. -/
theorem exec_braW_of_readExtension {s : State} {ext : Word} (h : readExtension s = .ok ext) :
    exec .braW s = .next (s.setPc (branchTarget16 s ext)) := afterRead_eq_next.mpr ⟨ext, h, rfl⟩

/-- Settles O17: the extension word is the big-endian value at PC + 2 (`bigEndianValue_two`), read as a signed number
(`sext_eq_signedOf`); an extension word past the end is BRA.W's fault (`exec_braW_of_gt`). -/
theorem branchAlwaysAddsExtensionWord : Obligations.BranchAlwaysAddsExtensionWord := by
  refine fun s => ⟨fun fits => ⟨_, exec_braW_of_readExtension (readWord_of_le (by omega)), ?target,
    rfl, fun _ => rfl, fun _ => rfl, fun _ => rfl⟩, exec_braW_of_gt⟩
  case target => rw [State.setPc_pc, branchTarget16_toNat, sext_eq_signedOf, bigEndianValue_two]

/-- A 16-bit displacement survives its way through the extension word. -/
theorem sext_ofInt_sixteen {d : Int} (low : -32768 ≤ d) (high : d ≤ 32767) : sext (BitVec.ofInt 16 d) = d :=
  BitVec.toInt_ofInt_eq_self (by decide) low (Int.lt_add_one_of_le high)

/-- Settles O18: the two assembled words lie at PC and PC + 2, so the step decodes BRA.W (`step_of_known`) and reads back the
displacement (`sext_ofInt_sixteen`). -/
theorem assembledBranchReachesDisplacement : Obligations.AssembledBranchReachesDisplacement := by
  intro s d low high fits held
  have layout : encodeBytes .braW d = wordBytes (encodeOp .braW) ++ wordBytes (BitVec.ofInt 16 d) := rfl
  rw [layout] at held
  have hfetch : readWord s.mem s.pc.toNat = .ok (encodeOp .braW) := held.left.readWord_eq (by omega)
  have hext : readExtension s = .ok (BitVec.ofInt 16 d) := held.right.readWord_eq fits
  refine ⟨_, (step_of_known hfetch (decodeOp_encodeOp rfl)).trans (exec_braW_of_readExtension hext), ?target,
    rfl, fun _ => rfl, fun _ => rfl, fun _ => rfl⟩
  case target => rw [State.setPc_pc, branchTarget16_toNat, sext_ofInt_sixteen low high]

/-! ### BLE.B -/

/-- BLE's condition: Z set, or exactly one of N and V (44_control.md R163). -/
theorem lessOrEqual_iff (f : Ccr) : lessOrEqual f = true ↔ f.z = true ∨ f.n ≠ f.v := by
  rw [lessOrEqual, Bool.or_eq_true, bne_iff_ne]

theorem branchTarget8_toNat (s : State) (disp8 : Byte) :
    ((branchTarget8 s disp8).toNat : Int) = ((s.pc.toNat : Int) + sext disp8) % 2 ^ 32 := by
  rw [branchTarget8, State.pcPlus_toNat, Params.bleBase, Int.zero_add]

theorem exec_bleB_of_taken {s : State} (disp8 : Byte) (h : lessOrEqual s.ccr = true) :
    exec (.bleB disp8) s = .next (s.setPc (branchTarget8 s disp8)) := by
  rw [exec_bleB, if_pos h]

/-- A BLE.B not taken leaves the whole state (decision D15). -/
theorem exec_bleB_of_not_taken {s : State} (disp8 : Byte) (h : ¬lessOrEqual s.ccr = true) :
    exec (.bleB disp8) s = .next s := by
  rw [exec_bleB, if_neg h, s.pcPlus_zero]
  rfl

/-- Settles O19: by BLE's condition (`lessOrEqual_iff`): taken to `branchTarget8_toNat`, or nothing changes. -/
theorem branchIfLessOrEqual : Obligations.BranchIfLessOrEqual := by
  intro disp8 s
  rw [← lessOrEqual_iff]
  by_cases h : lessOrEqual s.ccr = true
  case pos =>
    refine ⟨_, exec_bleB_of_taken disp8 h, fun _ => ?target, fun hnot => absurd h hnot,
      rfl, fun _ => rfl, fun _ => rfl, fun _ => rfl⟩
    case target => rw [State.setPc_pc, branchTarget8_toNat, sext_eq_signedOf]
  case neg =>
    exact ⟨s, exec_bleB_of_not_taken disp8 h, fun taken => absurd taken h, fun _ => rfl,
      rfl, fun _ => rfl, fun _ => rfl, fun _ => rfl⟩

end Sys2Proof.Machine
end

section
/-! PROOFS. Instructions that leave PC where it is, run again (40_fetch_decode.md R109, 70_reset_and_hazards.md R236). -/

namespace Sys2Proof.Machine

/-- Where PC and memory are as before, the fetch gives the same word. -/
theorem fetch_of_same_pc_mem {s t : State} {op : Word} (hfetch : readWord s.mem s.pc.toNat = .ok op) (pc : t.pc = s.pc)
    (mem : t.mem = s.mem) : readWord t.mem t.pc.toNat = .ok op := by
  rw [pc, mem, hfetch]

/-! ### ADD.L D2,D2 -/

/-- One step at ADD.L D2,D2 doubles D2, and the next step fetches the same word. -/
theorem step_addL_doubles {s : State} (hfetch : readWord s.mem s.pc.toNat = .ok 0xD442) :
    ∃ t, step s = .next t ∧ (t.dreg 2).toNat = (s.dreg 2).toNat * 2 % 2 ^ 32 ∧ t.pc = s.pc ∧ t.mem = s.mem ∧
      SameDregsExcept 2 s t ∧ SameAregs s t := by
  obtain ⟨t, hexec, value, _, _, _, _, pc, others, aregs, _⟩ := addLongAddsModulo.1 2 2 s
  exact ⟨t, (addLongAddsModulo.2 s hfetch).trans hexec, by rw [value, Nat.mul_two], pc, exec_next_mem hexec, others, aregs⟩

/-- Settles O20: by induction on the number of steps, each doubling D2 (`step_addL_doubles`). -/
theorem repeatedAddDoublesEachStep : Obligations.RepeatedAddDoublesEachStep := by
  intro n
  induction n with
  | zero =>
    intro s _
    refine ⟨s, rfl, ?_, rfl, fun _ _ => rfl, fun _ => rfl, fun _ => rfl⟩
    rw [pow_zero, Nat.mul_one, Nat.mod_eq_of_lt (s.dreg 2).isLt]
  | succ n ih =>
    intro s hfetch
    obtain ⟨t, hstep, value, pc, mem, others, aregs⟩ := step_addL_doubles hfetch
    obtain ⟨u, hrun, value', pc', others', aregs', mem'⟩ := ih t (fetch_of_same_pc_mem hfetch pc mem)
    refine ⟨u, (run_succ_of_next n hstep).trans hrun, ?doubled, pc'.trans pc,
      fun i other => (others' i other).trans (others i other), fun i => (aregs' i).trans (aregs i),
      fun a => (mem' a).trans (by rw [mem])⟩
    case doubled =>
      calc
        (u.dreg 2).toNat = (s.dreg 2).toNat * 2 % 2 ^ 32 * 2 ^ n % 2 ^ 32 := by rw [value', value]
        _ = (s.dreg 2).toNat * 2 ^ (n + 1) % 2 ^ 32 := by rw [Nat.mod_mul_mod, Nat.mul_assoc, ← Nat.pow_succ']

/-! ### SUB.W D0,A7 -/

/-- The signed reading of an n-bit number is the number itself modulo 2^n. -/
theorem signedOf_emod (n v : Nat) : signedOf n v % 2 ^ n = (v : Int) % 2 ^ n := by
  unfold signedOf
  split
  · exact Int.sub_emod_right _ _
  · rfl

/-- One step at SUB.W D0,A7 subtracts D0 from A7 modulo 2^16, and the next step fetches the same word. -/
theorem step_subW_subtracts {s : State} (hfetch : readWord s.mem s.pc.toNat = .ok 0x91E7) :
    ∃ t, step s = .next t ∧ ((t.areg 7).toNat : Int) = ((s.areg 7).toNat - (s.dreg 0).toNat : Int) % 65536 ∧
      t.pc = s.pc ∧ t.mem = s.mem ∧ SameDregs s t ∧ SameAregsExcept 7 s t := by
  obtain ⟨t, hexec, value, _, _, _, _, pc, dregs, others, _⟩ := subtractWordFromAddressRegister.1 0 7 s
  refine ⟨t, (subtractWordFromAddressRegister.2 s hfetch).trans hexec, ?_, pc, exec_next_mem hexec, dregs, others⟩
  have a7 := signedOf_emod 16 ((s.areg 7).toNat % 65536)
  have d0 := signedOf_emod 16 ((s.dreg 0).toNat % 65536)
  rw [value]
  omega

/-- Settles O21: by induction on the number of further steps, each subtracting D0 (`step_subW_subtracts`). -/
theorem repeatedSubtractGoesOn : Obligations.RepeatedSubtractGoesOn := by
  intro n
  induction n with
  | zero =>
    intro s hfetch
    obtain ⟨t, hstep, value, pc, mem, dregs, others⟩ := step_subW_subtracts hfetch
    refine ⟨t, run_succ_of_next 0 hstep, ?_, pc, dregs, others, fun a => by rw [mem]⟩
    rw [value, Nat.cast_zero, zero_add, one_mul]
  | succ n ih =>
    intro s hfetch
    obtain ⟨t, hstep, value, pc, mem, dregs, others⟩ := step_subW_subtracts hfetch
    obtain ⟨u, hrun, value', pc', dregs', others', mem'⟩ := ih t (fetch_of_same_pc_mem hfetch pc mem)
    refine ⟨u, (run_succ_of_next (n + 1) hstep).trans hrun, ?subtracted, pc'.trans pc,
      fun i => (dregs' i).trans (dregs i), fun i other => (others' i other).trans (others i other),
      fun a => (mem' a).trans (by rw [mem])⟩
    case subtracted =>
      calc
        ((u.areg 7).toNat : Int)
          = (((s.areg 7).toNat - (s.dreg 0).toNat : Int) % 65536 - (n + 1) * (s.dreg 0).toNat) % 65536 := by
            rw [value', value, dregs 0]
        _ = ((s.areg 7).toNat - (s.dreg 0).toNat - (n + 1) * (s.dreg 0).toNat : Int) % 65536 := Int.emod_sub_emod _ _ _
        _ = ((s.areg 7).toNat - ((n + 1 : Nat) + 1) * (s.dreg 0).toNat : Int) % 65536 := by
            congr 1
            push_cast
            ring

/-! ### MOVE.B, CMP.B and a BLE.B not taken -/

theorem State.setDreg_dreg_self (s : State) (i : RegIdx) : s.setDreg i (s.dreg i) = s := by
  simp [State.setDreg, State.dreg]

/-- A value's own low byte put in its place changes nothing. -/
theorem insertByte_lowByte (v : Long) : insertByte v (lowByte v) = v := by
  rw [← BitVec.toNat_inj, insertByte_toNat, lowByte_toNat]
  omega

theorem setDregByte_dregByte_self (s : State) (i : RegIdx) : setDregByte s i (dregByte s i) = s := by
  rw [setDregByte, dregByte, insertByte_lowByte, State.setDreg_dreg_self]

theorem setDregByte_dregByte_same (s : State) (i : RegIdx) (b : Byte) : dregByte (setDregByte s i b) i = b := by
  rw [dregByte, setDregByte_dreg_same, lowByte_insertByte]

theorem setDregByte_dregByte_other (s : State) {i j : RegIdx} (b : Byte) (h : j ≠ i) :
    dregByte (setDregByte s i b) j = dregByte s j := congrArg lowByte (setDregByte_sameDregsExcept s i b j h)

/-- MOVE.B changes nothing where the destination's low byte is the source's and the flags are that byte's. -/
theorem exec_moveB_settled {src dst : RegIdx} {s : State} (hbyte : dregByte s dst = dregByte s src)
    (hflags : s.ccr = moveByteFlags (dregByte s src)) : exec (.moveB src dst) s = .next s := by
  rw [exec_moveB, ← hflags, ← hbyte, setDregByte_dregByte_self]
  rfl

/-- MOVE.B run again changes nothing: its first run left the byte and the flags in place (`exec_moveB_settled`). -/
theorem exec_moveB_again {src dst : RegIdx} {s t : State} (hne : src ≠ dst) (h : exec (.moveB src dst) s = .next t) :
    exec (.moveB src dst) t = .next t := by
  cases h
  have source : dregByte (setDregByte s dst (dregByte s src)) src = dregByte s src := setDregByte_dregByte_other s _ hne
  have destination : dregByte (setDregByte s dst (dregByte s src)) dst = dregByte s src :=
    setDregByte_dregByte_same s dst _
  exact exec_moveB_settled (destination.trans source.symm) (congrArg moveByteFlags source.symm)

/-- Settles O22: the second MOVE.B finds its byte and flags in place (`exec_moveB_again`), the second CMP.B compares the
same registers, and a BLE.B not taken leaves the state (`exec_bleB_of_not_taken`). -/
theorem stationaryStepsSettle : Obligations.StationaryStepsSettle := by
  rintro s (hfetch | hfetch | ⟨hfetch, hz, hnv⟩)
  case inl =>
    refine ⟨_, (step_of_known (i := .moveB 0 1) hfetch (by decide)).trans (exec_moveB 0 1 s), rfl, ?again⟩
    case again =>
      exact Eq.trans (step_of_known (i := .moveB 0 1) (fetch_of_same_pc_mem hfetch rfl rfl) (by decide))
        (exec_moveB_again (by decide) (exec_moveB 0 1 s))
  case inr.inl =>
    exact ⟨_, (step_of_known (i := .cmpB) hfetch (by decide)).trans (exec_cmpB s), rfl,
      step_of_known (i := .cmpB) (fetch_of_same_pc_mem hfetch rfl rfl) (by decide)⟩
  case inr.inr =>
    have notTaken : ¬lessOrEqual s.ccr = true := by
      rw [lessOrEqual_iff, hz, hnv]
      simp
    have stays : step s = .next s := (step_of_known hfetch (by decide)).trans (exec_bleB_of_not_taken 17 notTaken)
    exact ⟨s, stays, rfl, stays⟩

end Sys2Proof.Machine
end

section
/-! PROOFS. The host's view: reset, registers, flags, the whole CCR, PC (10_state.md R27, R37, R40, R42). -/

namespace Sys2Proof.Machine

/-! ### Reset (R37) -/

theorem State.reset_dreg (i : RegIdx) : State.reset.dreg i = 0 := Vector.getElem_replicate i.isLt

theorem State.reset_areg (i : RegIdx) : State.reset.areg i = 0 := Vector.getElem_replicate i.isLt

/-- Settles O42: the registers are `State.reset_dreg` and `State.reset_areg`; the empty memory reads 0 inside the array
(`readByte_of_le`) and nothing past it (`readByte_of_gt`). -/
theorem resetIsZeroEverywhere : Obligations.ResetIsZeroEverywhere :=
  ⟨fun i => ⟨State.reset_dreg i, State.reset_areg i⟩, rfl, rfl, fun _ inside => readByte_of_le inside,
    fun _ past => readByte_of_gt (Nat.lt_succ_of_le past)⟩

/-! ### Registers and flags (R40) -/

/-- Settles O43: what is written reads back modulo 2^32 (`State.setDreg_dreg_same`, `State.setAreg_areg_same`), and the other
registers are as they were (`State.setDreg_dreg_other`, `State.setAreg_areg_other`). -/
theorem hostRegisterWritesAreIsolated : Obligations.HostRegisterWritesAreIsolated := by
  refine fun s i v => ⟨⟨s.setDreg i (BitVec.ofNat 32 v), rfl, ?data, rfl, rfl,
      fun _ other => State.setDreg_dreg_other s _ other, fun _ => rfl, fun _ => rfl⟩,
    ⟨s.setAreg i (BitVec.ofNat 32 v), rfl, ?addr, rfl, rfl,
      fun _ => rfl, fun _ other => State.setAreg_areg_other s _ other, fun _ => rfl⟩,
    ⟨s.setPc (BitVec.ofNat 32 v), rfl, ?pc, rfl, fun _ => rfl, fun _ => rfl, fun _ => rfl⟩⟩
  case data => rw [act, State.setDreg_dreg_same, BitVec.toNat_ofNat]
  case addr => rw [act, State.setAreg_areg_same, BitVec.toNat_ofNat]
  case pc => rw [act, State.setPc_pc, BitVec.toNat_ofNat]

@[simp] theorem getFlag_setFlag_same (f : Flag) (b : Bool) (s : State) : getFlag f (setFlag f b s) = b := by
  cases f <;> rfl

theorem getFlag_setFlag_other {f g : Flag} (b : Bool) (s : State) (h : g ≠ f) :
    getFlag g (setFlag f b s) = getFlag g s := by
  cases f with
  | z =>
    cases g with
    | z => exact absurd rfl h
    | n | c | v => rfl
  | n =>
    cases g with
    | n => exact absurd rfl h
    | z | c | v => rfl
  | c =>
    cases g with
    | c => exact absurd rfl h
    | z | n | v => rfl
  | v =>
    cases g with
    | v => exact absurd rfl h
    | z | n | c => rfl

/-- A flag write is a write of the CCR. -/
theorem setFlag_eq_setCcr (f : Flag) (b : Bool) (s : State) : ∃ ccr, setFlag f b s = s.setCcr ccr := by
  cases f <;> exact ⟨_, rfl⟩

/-- Settles O44: the flag reads back and no other changes (`getFlag_setFlag_same`, `getFlag_setFlag_other`); the rest of the
state is that of a write of the CCR. -/
theorem hostFlagWritesAreIsolated : Obligations.HostFlagWritesAreIsolated := by
  intro s f b
  refine ⟨setFlag f b s, rfl, congrArg Reply.flag (getFlag_setFlag_same f b s),
    fun g other => congrArg Reply.flag (getFlag_setFlag_other b s other), ?rest⟩
  case rest =>
    obtain ⟨ccr, written⟩ := setFlag_eq_setCcr f b s
    rw [written]
    exact ⟨rfl, fun _ => rfl, fun _ => rfl, fun _ => rfl⟩

/-! ### The whole CCR (R42) -/

theorem b2i_le_one (b : Bool) : b2i b ≤ 1 := by
  cases b <;> decide

theorem b2i_testBit (v k : Nat) : b2i (v.testBit k) = v / 2 ^ k % 2 := by
  rw [← Nat.toNat_testBit]
  cases v.testBit k <;> rfl

theorem Ccr.toWord_lt (f : Ccr) : f.toWord.toNat < 16 := by
  rw [Ccr.toWord_toNat]
  have := b2i_le_one f.n
  have := b2i_le_one f.z
  have := b2i_le_one f.v
  have := b2i_le_one f.c
  omega

/-- A whole write keeps the low four bits (decision D2). -/
theorem Ccr.toWord_ofNat (v : Nat) : (Ccr.ofNat v).toWord.toNat = v % 16 := by
  rw [Ccr.toWord_toNat, Ccr.ofNat, b2i_testBit, b2i_testBit, b2i_testBit, b2i_testBit]
  omega

/-- Settles O45: the flags are the bits of `Ccr.ofNat`, the view has four bits (`Ccr.toWord_ofNat`, `Ccr.toWord_lt`), and
writing it back gives the same flags (`Ccr.ofNat_toWord`). -/
theorem wholeCcrHasFourBits : Obligations.WholeCcrHasFourBits := by
  refine ⟨fun s v => ⟨s.setCcr (Ccr.ofNat v), rfl, rfl, rfl, rfl, rfl, congrArg Reply.value (Ccr.toWord_ofNat v),
    rfl, fun _ => rfl, fun _ => rfl, fun _ => rfl⟩, fun s => ⟨s.ccr.toWord_lt, ?writeBack⟩⟩
  case writeBack =>
    rw [act, Ccr.ofNat_toWord]
    rfl

/-! ### PC (R27) -/

/-- Two advances of PC are one by the sum, modulo 2^32. -/
theorem advancePc_advancePc (d e : Int) (s : State) : advancePc e (advancePc d s) = advancePc (d + e) s := by
  have sameTarget : (s.setPc (s.pcPlus d)).pcPlus e = s.pcPlus (d + e) := by
    rw [← BitVec.toNat_inj]
    have once := s.pcPlus_toNat d
    have again := (s.setPc (s.pcPlus d)).pcPlus_toNat e
    have sum := s.pcPlus_toNat (d + e)
    rw [State.setPc_pc] at again
    omega
  rw [advancePc, advancePc, advancePc, sameTarget]
  rfl

/-- Settles O46: one advance is `State.pcPlus_toNat`, two are `advancePc_advancePc`. -/
theorem advancePcAddsModulo : Obligations.AdvancePcAddsModulo :=
  ⟨fun s delta => ⟨advancePc delta s, rfl, s.pcPlus_toNat delta, rfl, fun _ => rfl, fun _ => rfl, fun _ => rfl⟩,
    fun s d e => advancePc_advancePc d e s⟩

/-! ### Reads (R54) -/

/-- Settles O47: each of the seven reads answers with the state it was given. -/
theorem hostReadsHaveNoEffect : Obligations.HostReadsHaveNoEffect := by
  intro s i f a op hop
  simp only [List.mem_cons, List.not_mem_nil, or_false] at hop
  obtain rfl | rfl | rfl | rfl | rfl | rfl | rfl := hop <;> rfl

end Sys2Proof.Machine
end
